-- ==== Sys2Proof/Word.lean ====
section
/-! DEFINITION. The plain types of the block: bus words, bytes, bus addresses and bit sequences. -/

namespace Sys2Proof

/-- A register or bus word (00_scope.md R10): 32 bits, bit 0 the least significant. -/
abbrev Word := BitVec 32

/-- One byte lane of a word (20_memory.md R53). -/
abbrev Byte := BitVec 8

/-- A byte address of the host port (20_memory.md R48). -/
abbrev Addr := BitVec 16

/-- A bit sequence (00_scope.md R9): element 0 is the first, leftmost, highest-degree bit. -/
abbrev Bits := List Bool

end Sys2Proof
end

