-- ==== Sys2Proof/Config.lean ====
section
/-! DEFINITION. What an implementation fixes (00_scope.md R7, 93_implementation_defined.md U4) and the free values
(93_implementation_defined.md U1, U2). The parameter LATENCY is no number here: the interleaving stands in State as plain
data (`turns`), so a statement about every state holds for every latency (log entry 1). -/

namespace Sys2Proof.Config

/-- The parameters a model takes (R7, R50, U4). They stand in State as a field that no step changes. -/
structure Params where
  /-- MAX_BITS: capacity in bits of IN_BUF and of OUT_BUF. -/
  maxBits : Nat
  /-- BLOCK_ID: the value of the ID register. -/
  blockId : Word
  /-- BLOCK_BASE: the block's base in the system address map (R50). -/
  blockBase : Nat
deriving DecidableEq, Repr

/-- MAX_CORR, "fixed: floor(MAX_BITS / 3)" (R7). -/
def Params.maxCorr (p : Params) : Nat := p.maxBits / 3

/-- The defaults of R7. DESIGN CHOICE (safe, log entry 4): BLOCK_BASE has no default, the model takes 0. -/
def defaults : Params := { maxBits := 4096, blockId := 0x48430001#32, blockBase := 0 }

/-- U1, R89: the unspecified word of draw `d`. No body: nothing can evaluate it. -/
opaque freeWord : (d : Nat) → Word

/-- U2, R177, R178: the byte that the reset of draw `d` leaves at buffer address `a`. No body. -/
opaque freeByte : (d a : Nat) → Byte

end Sys2Proof.Config
end

