-- ==== Sys2Proof/Syntax.lean ====
section
/-! DEFINITION. The command set (spec/opcode_table.json), and the plain data of the host port: registers, targets,
transactions, responses, the host's moves and the agents. -/

namespace Sys2Proof

/-- The five commands (30_encoding.md R72). A command word carries no operand (R75). -/
inductive Instr where
  /-- HAM_DECODE (41_hamming_sec_decoder.md R116) -/
  | hamDecode
  /-- HAM_ENCODE (R117) -/
  | hamEncode
  /-- CRC_VERIFY (42_crc32_verifier.md R137) -/
  | crcVerify
  /-- CRC_APPEND (R138) -/
  | crcAppend
  /-- CRC_REMAINDER (R139) -/
  | crcRemainder
deriving DecidableEq, Repr

/-- Why a command word is no command: 30_encoding.md R73 (reserved bits set) or R74 (reserved OP). -/
inductive Illegal where
  | reservedBits (rsv : BitVec 28)
  | reservedOp (op : BitVec 4)
deriving DecidableEq, Repr

/-- The registers of 10_state.md R20, in the order of their offsets. -/
inductive Reg where
  | ctrl | status | cmd | n | inLen | outLen | corrCount | rem | remLen
  | errCode | errBlock | errSyndrome | errN | errLen
  | hamR | hamM | capMaxBits | capMaxCorr | id
deriving DecidableEq, Repr

/-- What a word of the address map (20_memory.md R50) belongs to. -/
inductive Target where
  /-- a register of R20 -/
  | reg (r : Reg)
  /-- 0x004C to 0x3FFC (R21) -/
  | reserved
  /-- word `w` of the IN_BUF window -/
  | inBuf (w : Nat)
  /-- word `w` of the OUT_BUF window -/
  | outBuf (w : Nat)
  /-- entry `e` of the CORR_BUF window -/
  | corrBuf (e : Nat)
deriving DecidableEq, Repr

/-- The kind of a bus transaction (20_memory.md R51). -/
inductive TxnKind where
  | read
  | write
deriving DecidableEq, Repr

/-- A bus transaction `(kind, addr, size, wdata)` (R51); `wdata` means something for writes only. -/
structure Txn where
  kind : TxnKind
  addr : Addr
  size : Nat
  wdata : Word
deriving DecidableEq, Repr

/-- The response to a bus transaction (R51): OK, with read data for a read, or BusError. -/
inductive Response where
  /-- OK to a write -/
  | ok
  /-- OK to a read, with its 32-bit rdata -/
  | data (rdata : Word)
  /-- the error response of R52 -/
  | busError
deriving DecidableEq, Repr

/-- What the host does next (40_host_access.md R99). -/
inductive HostMove where
  /-- one bus transaction -/
  | bus (t : Txn)
  /-- the WAIT loop of 30_encoding.md R82: read STATUS until it shows BUSY = 0 -/
  | wait
  /-- wait until `irq` is asserted (R99, 70_reset_and_hazards.md R184); no bus transaction -/
  | waitIrq
deriving DecidableEq, Repr

/-- The three agents that change the state (10_state.md R16). -/
inductive Turn where
  /-- the host performs its next move -/
  | host
  /-- the engine completes the accepted command, if there is one -/
  | engine
  /-- the reset input `rst` is asserted -/
  | rst
deriving DecidableEq, Repr

/-- The statements of a host script that stand for bus transactions (30_encoding.md R81, R82). -/
inductive Stmt where
  /-- `WR <target>, <value>`, the target as a byte offset -/
  | wr (addr : Addr) (v : Word)
  /-- `RD <target>` -/
  | rd (addr : Addr)
  /-- `CMD <word>` -/
  | cmd (w : Word)
  /-- `WAIT` -/
  | wait
  /-- `RUN <word>` -/
  | run (w : Word)
  /-- `LDBITS "<b>"` -/
  | ldbits (b : Bits)
  /-- `SETN <v>` -/
  | setn (v : Word)
deriving DecidableEq, Repr

end Sys2Proof
end

