-- ==== Sys2Proof/WellFormed.lean ====
section
/-! DEFINITION. What is well formed: a bus transaction (20_memory.md R52), a command word (30_encoding.md R73, R74), the
parameters (00_scope.md R7). A command has no operand (R75), so every `Instr` is well formed. -/

namespace Sys2Proof

/-- R52: "Only `size = 4` with `addr mod 4 = 0` is legal." -/
def Txn.wellFormed (t : Txn) : Bool := t.size == 4 && t.addr.toNat % 4 == 0

/-- R75: a command word carries no operand and no immediate, so there is nothing to check in a command. -/
def Instr.wellFormed : Instr → Bool
  | .hamDecode | .hamEncode | .crcVerify | .crcAppend | .crcRemainder => true

/-- R71 to R74: bits 31:4 are 0 and bits 3:0 hold one of the five OP values. -/
def commandWordWellFormed (w : Word) : Bool :=
  w.toNat / 16 == 0 && (1 ≤ w.toNat % 16 && w.toNat % 16 ≤ 5)

/-- R7: MAX_BITS is "a multiple of 32 with 64 ≤ MAX_BITS ≤ 12288". -/
def Config.Params.legal (p : Config.Params) : Bool :=
  p.maxBits % 32 == 0 && (64 ≤ p.maxBits && p.maxBits ≤ 12288)

end Sys2Proof
end

