-- ==== Sys2Proof/Decode.lean ====
section
/-! DEFINITION. The command word (30_encoding.md R71 to R74): its two fields, the decoder (R80), the encoder (R72), and the
decoder as the opcode table numbers its bits. -/

namespace Sys2Proof

/-- OP, bits 3:0 (R71). -/
def opField (w : Word) : BitVec 4 := w.extractLsb' 0 4

/-- RSV, bits 31:4 (R71). -/
def rsvField (w : Word) : BitVec 28 := w.extractLsb' 4 28

/-- R80's dispatch: reserved bits are looked at first (R73), then OP (R72, R74). Total on every word. -/
def decode (w : Word) : Except Illegal Instr :=
  if rsvField w ≠ 0 then .error (.reservedBits (rsvField w))
  else match (opField w).toNat with
    | 0x1 => .ok .hamDecode
    | 0x2 => .ok .hamEncode
    | 0x3 => .ok .crcVerify
    | 0x4 => .ok .crcAppend
    | 0x5 => .ok .crcRemainder
    | _ => .error (.reservedOp (opField w))

/-- The OP value of a command (R72). -/
def opOf : Instr → BitVec 4
  | .hamDecode => 0x1
  | .hamEncode => 0x2
  | .crcVerify => 0x3
  | .crcAppend => 0x4
  | .crcRemainder => 0x5

/-- The command word of a command (R71, R72): RSV = 0 above OP. -/
def encode (i : Instr) : Word := (0#28 ++ opOf i : BitVec 32)

/-- The command the decoder reads from a word numbered as spec/opcode_table.json numbers it. Every row has 32 bits, the
whole command (R79), so a number that does not fit a word is no command. -/
def decodeTableWord (nbits w : Nat) : Option Instr :=
  if w % 2 ^ nbits < 2 ^ 32 then (decode (BitVec.ofNat 32 (w % 2 ^ nbits))).toOption else none

end Sys2Proof
end

