-- ==== Sys2Proof/Machine/State.lean ====
section
/-! DEFINITION. The state: the architectural record of 10_state.md R17 (`Block`), and around it the environment the model
needs to run one deterministic step: parameters, the host's moves, the schedule, the free-value counter and the last bus
response. The reasons a step can stop, and the outcome of a command (40_host_access.md R96). -/

namespace Sys2Proof.Machine

/-- The three buffers as bytes of the host address space (20_memory.md R50, R53 to R57). `cells` lists the known bytes,
addresses strictly rising. What an unlisted byte reads as is `Memory.unlisted` (Machine/Ops.lean): the free byte that a
reset left there (R177, R178), or 0 in the result buffers once a completion has written them whole (R56, R57). -/
structure Memory where
  /-- the draw of the power-on reset that left IN_BUF unspecified -/
  inEpoch : Nat
  /-- the draw of the reset that left OUT_BUF and CORR_BUF unspecified; none once a completion has written them -/
  outEpoch : Option Nat
  cells : List Host.Cell
deriving DecidableEq, Repr

/-- The architectural state of R17, every field named there. -/
structure Block where
  /-- CTRL.IE (R22) -/
  ctrlIe : Bool
  /-- STATUS.BUSY (R24) -/
  busy : Bool
  /-- STATUS.DONE (R25) -/
  done : Bool
  /-- STATUS.ERR (R26) -/
  err : Bool
  /-- STATUS.VALID (R27) -/
  valid : Bool
  /-- STATUS.CORRECTED (R28) -/
  corrected : Bool
  /-- STATUS.BUSY_VIOL (R29) -/
  busyViol : Bool
  /-- the accepted command word (R45) -/
  pending : Option Word
  /-- N (R31) -/
  n : Word
  /-- IN_LEN (R32) -/
  inLen : Word
  /-- OUT_LEN (R36) -/
  outLen : Word
  /-- CORR_COUNT (R37) -/
  corrCount : Word
  /-- REM (R38) -/
  rem : Word
  /-- REM_LEN (R39) -/
  remLen : Word
  /-- ERR_CODE (R40) -/
  errCode : Word
  /-- ERR_BLOCK (R41) -/
  errBlock : Word
  /-- ERR_SYNDROME (R42) -/
  errSyndrome : Word
  /-- ERR_N (R43) -/
  errN : Word
  /-- ERR_LEN (R44) -/
  errLen : Word
  /-- IN_BUF, OUT_BUF and CORR_BUF (20_memory.md R55 to R57) -/
  mem : Memory
deriving DecidableEq, Repr

/-- The state of one step: the block of R17 and the model's own fields (log entries 1 to 4). -/
structure State extends Block where
  /-- MAX_BITS, BLOCK_ID, BLOCK_BASE (00_scope.md R7); no step changes it -/
  params : Config.Params
  /-- what the host does next (R16, R99) -/
  host : List HostMove
  /-- which agents move next (R16, R62); when the list is used up the schedule is S0 of 95_test_vectors.md -/
  turns : List Turn
  /-- the response to the last bus transaction (20_memory.md R51), none before the first -/
  response : Option Response
  /-- the number of the next free value (R89, R177, R178) -/
  draws : Nat
deriving DecidableEq, Repr

/-- Why the machine stops. R151: no abnormal outcome of the block stops it, so the one fault is the model's own. -/
inductive Fault where
  /-- Raised by the engine's step when BUSY = 1 and no command word is held. Safe: R17's first invariant rules that state
  out, no run from reset reaches it, and R96 gives it no effect. -/
  | noPendingCommand
deriving DecidableEq, Repr

/-- Why the model declines an instruction. -/
inductive Refusal where
  /-- An arm of `exec` without a meaning. Safe. No arm is left in this form. -/
  | notModelled (mnemonic : String)
deriving DecidableEq, Repr

/-- The named errors of 60_exceptions.md R152. -/
inductive ErrKind where
  /-- 1: never raised (R154) -/
  | invalidCharacter
  /-- 2 (R155) -/
  | lengthMismatch
  /-- 3 (R156) -/
  | uncorrectableBlock
  /-- 4 (R158) -/
  | shortFrame
  /-- 5 (R157) -/
  | badParam
  /-- 6 (R160) -/
  | capacityExceeded
  /-- 7 (R161) -/
  | illegalCommand
deriving DecidableEq, Repr

/-- A raised error with its fields; "Fields not named are 0" (00_scope.md R13). -/
structure CmdError where
  kind : ErrKind
  block : Nat := 0
  syndrome : Nat := 0
  n : Nat := 0
  len : Nat := 0
deriving DecidableEq, Repr

/-- The record a command returns (R96); "Parts a command does not name are the empty sequence or 0". -/
structure CmdOutput where
  out : Bits := []
  corr : List (Nat × Nat) := []
  rem : Word := 0
  remLen : Nat := 0
  valid : Bool := false
deriving DecidableEq, Repr

/-- What a command's computation gives: its outputs, or the one error it raises (R13, R96). -/
abbrev CmdResult := Except CmdError CmdOutput

/-- The state after the power-on reset (10_state.md R47, 70_reset_and_hazards.md R177): every register 0, no command held,
the buffers unspecified (the free bytes of draw 0). The parameters are R7's defaults, and the host does nothing. -/
def State.reset : State where
  ctrlIe := false
  busy := false
  done := false
  err := false
  valid := false
  corrected := false
  busyViol := false
  pending := none
  n := 0
  inLen := 0
  outLen := 0
  corrCount := 0
  rem := 0
  remLen := 0
  errCode := 0
  errBlock := 0
  errSyndrome := 0
  errN := 0
  errLen := 0
  mem := { inEpoch := 0, outEpoch := some 0, cells := [] }
  params := Config.defaults
  host := []
  turns := []
  response := none
  draws := 1

end Sys2Proof.Machine
end

