-- ==== Sys2Proof/Machine/Flags.lean ====
section
/-! DEFINITION. The STATUS word and its flags (10_state.md R23 to R29), the interrupt output (60_exceptions.md R168) and the
error codes (R152). -/

namespace Sys2Proof.Machine

/-- R10: `zext_32` of one bit. -/
def zext1 (b : Bool) : Word := if b then 1 else 0

/-- R23: the value a read of STATUS returns. -/
def statusWord (s : State) : Word :=
  zext1 s.busyViol <<< 5 ||| zext1 s.corrected <<< 4 ||| zext1 s.valid <<< 3 ||| zext1 s.err <<< 2 |||
    zext1 s.done <<< 1 ||| zext1 s.busy

/-- R168: `irq = STATUS.DONE ∧ CTRL.IE` at every step. -/
def irq (s : State) : Bool := s.done && s.ctrlIe

/-- R152: the number of an error kind. -/
def errCodeOf : ErrKind → Word
  | .invalidCharacter => 1
  | .lengthMismatch => 2
  | .uncorrectableBlock => 3
  | .shortFrame => 4
  | .badParam => 5
  | .capacityExceeded => 6
  | .illegalCommand => 7

/-- R92: the flags at acceptance. BUSY is set, DONE, ERR, VALID and CORRECTED are cleared, BUSY_VIOL keeps its value. -/
def acceptFlags (s : State) : State :=
  { s with busy := true, done := false, err := false, valid := false, corrected := false }

/-- R96, R159: what a completion writes to ERR, VALID and CORRECTED (R26, R27, R28). -/
def resultFlags (r : CmdResult) (s : State) : State :=
  match r with
  | .ok o => { s with err := false, valid := o.valid, corrected := decide (0 < o.corr.length) }
  | .error _ => { s with err := true, valid := false, corrected := false }

/-- R96's last line: BUSY ← 0, DONE ← 1, no command is held any more. -/
def endOfCommand (s : State) : State := { s with busy := false, done := true, pending := none }

/-- R91: a STATUS write clears DONE where bit 1 is 1 and BUSY_VIOL where bit 5 is 1. -/
def clearFlags (v : Word) (s : State) : State :=
  { s with done := s.done && !v.getLsbD 1, busyViol := s.busyViol && !v.getLsbD 5 }

/-- R98: a guarded write in the BUSY window is dropped and sets BUSY_VIOL. -/
def setBusyViol (s : State) : State := { s with busyViol := true }

end Sys2Proof.Machine
end

