-- ==== Sys2Proof/Machine/Ops.lean ====
section
/-! DEFINITION. The named operations over the buffers and the registers: bytes and words of memory (20_memory.md R50 to R58),
a command's completion with its results or its error (40_host_access.md R96, 60_exceptions.md R159), acceptance (R92) and
the two resets (70_reset_and_hazards.md R177, R178). The block has no trap entry and no return from one (R164, R165): an
error is one of the two outcomes of `complete`. -/

namespace Sys2Proof.Machine

/-! ### The address map (R50) -/

/-- The base of the IN_BUF window (R50). -/
abbrev inBase : Nat := 0x4000

/-- The base of the OUT_BUF window (R50). -/
abbrev outBase : Nat := 0x8000

/-- The base of the CORR_BUF window (R50). -/
abbrev corrBase : Nat := 0xC000

/-- R50: the implemented bytes of the three buffers. MAX_BITS is a multiple of 32, so a word is implemented whole. -/
def implemented (p : Config.Params) (a : Nat) : Bool :=
  (inBase ≤ a && a < inBase + p.maxBits / 8) || (outBase ≤ a && a < outBase + p.maxBits / 8) ||
    (corrBase ≤ a && a < corrBase + 4 * p.maxCorr)

/-! ### Bytes -/

/-- The byte listed at an address. -/
def findCell : List Host.Cell → Nat → Option Byte
  | [], _ => none
  | c :: cs, a => if c.1 = a then some c.2 else findCell cs a

/-- Put a byte in its place in a list of rising addresses. -/
def putCell (a : Nat) (b : Byte) : List Host.Cell → List Host.Cell
  | [] => [(a, b)]
  | c :: cs => if a < c.1 then (a, b) :: c :: cs else if c.1 = a then (a, b) :: cs else c :: putCell a b cs

/-- What an unlisted address reads as, where that is a known byte: 0 in OUT_BUF and CORR_BUF once a completion has
written them whole (R56, R57). `none`: the reset left the byte unspecified (R47) and nothing has written it. -/
def Memory.unlisted? (m : Memory) (a : Nat) : Option Byte :=
  if a < outBase then none else match m.outEpoch with
    | some _ => none
    | none => some 0#8

/-- What an unlisted address reads as: the known byte, or the free byte of the reset that left it unspecified (U2). -/
def Memory.unlisted (m : Memory) (a : Nat) : Byte :=
  if a < outBase then Config.freeByte m.inEpoch a else match m.outEpoch with
    | some d => Config.freeByte d a
    | none => 0#8

/-- The byte at an address of the buffers. -/
def Memory.byteAt (m : Memory) (a : Nat) : Byte := (findCell m.cells a).getD (m.unlisted a)

/-- Write a byte, keeping the canonical form: a byte equal to what an unlisted address reads as is not listed. -/
def Memory.putByte (m : Memory) (a : Nat) (b : Byte) : Memory :=
  { m with cells := if m.unlisted? a = some b then m.cells.filter (·.1 ≠ a) else putCell a b m.cells }

/-- The addresses of a list of cells rise strictly, all of them above a bound. -/
def risingFrom (lo : Nat) : List Host.Cell → Bool
  | [] => true
  | c :: cs => decide (lo ≤ c.1) && risingFrom (c.1 + 1) cs

/-- The canonical form: addresses strictly rising, no entry equal to what an unlisted address reads as. -/
def Memory.wf (m : Memory) : Bool :=
  risingFrom 0 m.cells && m.cells.all (fun c => decide (m.unlisted? c.1 ≠ some c.2))

/-- The byte at an address of the block's memory; a byte that is not implemented reads 0 (R58). -/
def readByte (s : State) (a : Nat) : Byte := if implemented s.params a then s.mem.byteAt a else 0#8

/-! ### Words: byte lane `k` carries bits 8k+7:8k (R53) -/

/-- Byte lane `k` of a word. -/
def lane (v : Word) (k : Nat) : Byte := v.extractLsb' (8 * k) 8

/-- A word from its four byte lanes, lane 3 first. -/
def ofLanes (b3 b2 b1 b0 : Byte) : Word := (b3 ++ b2 ++ b1 ++ b0 : BitVec 32)

/-- The word at a word address; a word that is not implemented reads 0 (R58). -/
def readWord (s : State) (a : Nat) : Word :=
  ofLanes (readByte s (a + 3)) (readByte s (a + 2)) (readByte s (a + 1)) (readByte s a)

/-- Write a word as its four bytes. -/
def Memory.putWord (m : Memory) (a : Nat) (v : Word) : Memory :=
  (((m.putByte a (lane v 0)).putByte (a + 1) (lane v 1)).putByte (a + 2) (lane v 2)).putByte (a + 3) (lane v 3)

/-- The listed cells of consecutive words from address `a`, where an unlisted byte reads 0. -/
def wordCells (a : Nat) : List Word → List Host.Cell
  | [] => []
  | v :: vs =>
    ([(a, lane v 0), (a + 1, lane v 1), (a + 2, lane v 2), (a + 3, lane v 3)].filter (fun c => decide (c.2 ≠ 0#8))) ++
      wordCells (a + 4) vs

/-! ### Packing (R54, R76) -/

/-- R77's sum: a bit sequence read as a number, its first bit the highest. -/
def bitsToNat (b : Bits) : Nat := b.foldl (fun acc x => 2 * acc + x.toNat) 0

/-- The word whose bit 31 − j is bit j of the sequence (R54), bits after its end 0. -/
def packWord (b : Bits) : Word := BitVec.ofNat 32 (bitsToNat ((b ++ List.replicate 32 false).take 32))

/-- The first `k` buffer words of a bit sequence (R54), bits after its end 0. -/
def packWords : Nat → Bits → List Word
  | 0, _ => []
  | k + 1, b => packWord b :: packWords k (b.drop 32)

/-- R76: `entry = block_index · 2^16 + position`. -/
def corrEntry (c : Nat × Nat) : Word := BitVec.ofNat 32 (c.1 * 2 ^ 16 + c.2)

/-- R56, R57: a completion writes all of OUT_BUF and CORR_BUF: the outputs, and 0 in every later bit and entry. -/
def Memory.putResults (p : Config.Params) (out : Bits) (corr : List (Nat × Nat)) (m : Memory) : Memory :=
  { inEpoch := m.inEpoch
    outEpoch := none
    cells := m.cells.filter (fun c => decide (c.1 < outBase)) ++
      (wordCells outBase (packWords (p.maxBits / 32) out) ++ wordCells corrBase ((corr.map corrEntry).take p.maxCorr)) }

/-- R178: OUT_BUF and CORR_BUF become unspecified, IN_BUF keeps its contents. -/
def Memory.dropResults (d : Nat) (m : Memory) : Memory :=
  { inEpoch := m.inEpoch, outEpoch := some d, cells := m.cells.filter (fun c => decide (c.1 < outBase)) }

/-! ### Completion (R96, R159) -/

/-- R96, the Ok case: output buffers, result registers, error registers 0. -/
def storeOutput (o : CmdOutput) (s : State) : State :=
  { s with
    mem := s.mem.putResults s.params o.out o.corr
    outLen := BitVec.ofNat 32 o.out.length
    corrCount := BitVec.ofNat 32 o.corr.length
    rem := o.rem
    remLen := BitVec.ofNat 32 o.remLen
    errCode := 0
    errBlock := 0
    errSyndrome := 0
    errN := 0
    errLen := 0 }

/-- R159: no output of any kind, and the error with its fields. -/
def storeError (e : CmdError) (s : State) : State :=
  { s with
    mem := s.mem.putResults s.params [] []
    outLen := 0
    corrCount := 0
    rem := 0
    remLen := 0
    errCode := errCodeOf e.kind
    errBlock := BitVec.ofNat 32 e.block
    errSyndrome := BitVec.ofNat 32 e.syndrome
    errN := BitVec.ofNat 32 e.n
    errLen := BitVec.ofNat 32 e.len }

/-- The buffers and registers a completion writes. -/
def storeResult (r : CmdResult) (s : State) : State :=
  match r with
  | .ok o => storeOutput o s
  | .error e => storeError e s

/-- R96: the completion of a command, all of its writes in one step. -/
def complete (r : CmdResult) (s : State) : State := endOfCommand (resultFlags r (storeResult r s))

/-- R161: the completion of a word that is no command. No operand is read and every error field is 0. -/
def illegalCommand : CmdResult := .error { kind := .illegalCommand }

/-! ### Acceptance (R92) and the resets (R177, R178) -/

/-- R92: the written word is held as the accepted command. -/
def acceptCommand (w : Word) (s : State) : State := acceptFlags { s with pending := some w }

/-- The assignments of both resets to every register and to `pending` (R177, R178). -/
def clearRegisters (s : State) : State :=
  { s with
    ctrlIe := false, busy := false, done := false, err := false, valid := false, corrected := false
    busyViol := false, pending := none, n := 0, inLen := 0, outLen := 0, corrCount := 0, rem := 0, remLen := 0
    errCode := 0, errBlock := 0, errSyndrome := 0, errN := 0, errLen := 0 }

/-- R177: the power-on reset. All three buffers hold the free bytes of a fresh draw. -/
def powerOnReset (s : State) : State :=
  { clearRegisters s with
    mem := { inEpoch := s.draws, outEpoch := some s.draws, cells := [] }
    draws := s.draws + 1 }

/-- R178: the soft reset. IN_BUF is unchanged, OUT_BUF and CORR_BUF hold the free bytes of a fresh draw. -/
def softReset (s : State) : State :=
  { clearRegisters s with mem := s.mem.dropResults s.draws, draws := s.draws + 1 }

/-- Place a command word where the engine's next step takes it, as its acceptance does (R92), and give the engine the next
turn (log entry 6). -/
def placeCommand (w : Word) (s : State) : State :=
  { acceptCommand w s with turns := .engine :: s.turns }

end Sys2Proof.Machine
end

