-- ==== Sys2Proof/Machine/Operands.lean ====
section
/-! DEFINITION. A command's operands (30_encoding.md R75): N and IN_LEN as unsigned numbers, and the input bit sequence
`BufSeq(IN_BUF, 0, L)` (00_scope.md R11, 20_memory.md R54). -/

namespace Sys2Proof.Machine

/-- `Buf(B, j) = Word(B, j / 32)[31 − (j mod 32)]` (R54), for the buffer at a base address. -/
def bufBit (s : State) (base j : Nat) : Bool := (readWord s (base + 4 * (j / 32))).getLsbD (31 - j % 32)

/-- `Buf(IN_BUF, j)`. -/
def inBit (s : State) (j : Nat) : Bool := bufBit s inBase j

/-- `Buf(OUT_BUF, j)`. -/
def outBit (s : State) (j : Nat) : Bool := bufBit s outBase j

/-- `Corr(e)`: entry `e` of CORR_BUF (R57). -/
def corrWord (s : State) (e : Nat) : Word := readWord s (corrBase + 4 * e)

/-- `BufSeq(B, a, b)` (R11) for a buffer given by its bits. -/
def bufSeq (buf : Nat → Bool) (a b : Nat) : Bits := (List.range' a (b - a)).map buf

/-- `n = reg[N]` (R75). -/
def operandN (s : State) : Nat := s.n.toNat

/-- `L = reg[IN_LEN]` (R75). -/
def operandLen (s : State) : Nat := s.inLen.toNat

end Sys2Proof.Machine
end

