-- ==== Sys2Proof/Machine/Hamming.lean ====
section
/-! DEFINITION. hamming_sec_decoder (41_hamming_sec_decoder.md): the block functions R106 to R115 and the commands HAM_DECODE
(R116) and HAM_ENCODE (R117). A block is a `Bits`, its position k (1-based, R9) the element k − 1. -/

namespace Sys2Proof.Machine

/-! ### Parameters of a block -/

/-- The first `r` of `r, r+1, …` with `n + 1 ≤ 2^r`, within `fuel` tries. -/
def parityBitsFrom (n r : Nat) : Nat → Nat
  | 0 => r
  | fuel + 1 => if n + 1 ≤ 2 ^ r then r else parityBitsFrom n (r + 1) fuel

/-- R106: `r(n)`, "the least integer r ≥ 0 with `2^r ≥ n + 1`". `2^n ≥ n + 1`, so `n` tries suffice. -/
def parityBits (n : Nat) : Nat := parityBitsFrom n 0 n

/-- R107: `m(n) = n − r(n)`. -/
def dataLen (n : Nat) : Nat := n - parityBits n

/-- R108: position `k` is a parity position when it is a power of two. -/
def isParityPos (k : Nat) : Bool := k == 2 ^ k.log2

/-- R109: the check of value `p` covers position `k` when `k & p ≠ 0`. -/
def covers (p k : Nat) : Bool := (k &&& p) != 0

/-- XOR of the bits at the selected positions of a sequence whose first position is `k`; 0 for an empty set. -/
def xorOver (sel : Nat → Bool) (k : Nat) : Bits → Bool
  | [] => false
  | b :: bs => (sel k && b) ^^ xorOver sel (k + 1) bs

/-! ### Decoding a block -/

/-- R111: syndrome_compute for a block of length `n`. -/
def syndrome (n : Nat) (blk : Bits) : Nat :=
  (List.range (parityBits n)).foldl (fun s i => if xorOver (covers (2 ^ i)) 1 blk then s ||| 2 ^ i else s) 0

/-- Flip the bit at 1-based position `k` of a working copy (R113, 20_memory.md R61). -/
def flipAt (blk : Bits) (k : Nat) : Bits := blk.modify (k - 1) (!·)

/-- R113: bit_flip_correct. The error case carries the syndrome. -/
def decodeBlock (n : Nat) (blk : Bits) : Except Nat (Bits × Option Nat) :=
  let s := syndrome n blk
  if s = 0 then .ok (blk, none)
  else if s ≤ n then .ok (flipAt blk s, some s)
  else .error s

/-- The bits at the data positions, ascending, of a sequence whose first position is `k`. -/
def extractFrom (k : Nat) : Bits → Bits
  | [] => []
  | b :: bs => if isParityPos k then extractFrom (k + 1) bs else b :: extractFrom (k + 1) bs

/-- R114: data extraction. -/
def extract (blk : Bits) : Bits := extractFrom 1 blk

/-! ### Encoding a block -/

/-- Positions `k, k+1, …` of a block, `cnt` of them: data bits in order at the data positions, 0 at the parity positions. -/
def placeFrom (k : Nat) : Nat → Bits → Bits
  | 0, _ => []
  | cnt + 1, d =>
    if isParityPos k then false :: placeFrom (k + 1) cnt d
    else d.headD false :: placeFrom (k + 1) cnt d.tail

/-- One parity bit of R115: position `p` gets the XOR over the other positions it covers. -/
def writeParity (blk : Bits) (i : Nat) : Bits :=
  blk.set (2 ^ i - 1) (xorOver (fun k => covers (2 ^ i) k && k != 2 ^ i) 1 blk)

/-- R115: encode_block. -/
def encodeBlock (n : Nat) (d : Bits) : Bits :=
  (List.range (parityBits n)).foldl writeParity (placeFrom 1 n d)

/-! ### Streams -/

/-- R116's loop over `cnt` blocks from block index `b`, ascending, fail-fast: the extracted data and the corrections, or the
0-based index and the syndrome of the first block that fails. -/
def decodeBlocks (n : Nat) : (b cnt : Nat) → Bits → Except (Nat × Nat) (Bits × List (Nat × Nat))
  | _, 0, _ => .ok ([], [])
  | b, cnt + 1, x =>
    match decodeBlock n (x.take n) with
    | .error s => .error (b, s)
    | .ok (blk, c) =>
      match decodeBlocks n (b + 1) cnt (x.drop n) with
      | .error e => .error e
      | .ok (data, corr) => .ok (extract blk ++ data, (c.toList.map fun p => (b, p)) ++ corr)

/-- R117's concatenation of `cnt` encoded groups of `m(n)` bits. -/
def encodeBlocks (n : Nat) : (cnt : Nat) → Bits → Bits
  | 0, _ => []
  | cnt + 1, x => encodeBlock n (x.take (dataLen n)) ++ encodeBlocks n cnt (x.drop (dataLen n))

/-! ### The commands -/

/-- R116: HamDecode(n, L, IN_BUF), its checks in the order of 60_exceptions.md R162. -/
def hamDecode (maxBits n len : Nat) (buf : Nat → Bool) : CmdResult :=
  if maxBits < len then .error { kind := .capacityExceeded, len := len, n := n }
  else if n < 3 then .error { kind := .badParam, len := len, n := n }
  else if len % n ≠ 0 then .error { kind := .lengthMismatch, len := len, n := n }
  else match decodeBlocks n 0 (len / n) (bufSeq buf 0 len) with
    | .error (b, s) => .error { kind := .uncorrectableBlock, block := b + 1, syndrome := s, n := n, len := len }
    | .ok (data, corr) => .ok { out := data, corr := corr }

/-- R117: HamEncode(n, L, IN_BUF), its checks in the order of R162. -/
def hamEncode (maxBits n len : Nat) (buf : Nat → Bool) : CmdResult :=
  if maxBits < len then .error { kind := .capacityExceeded, len := len, n := n }
  else if n < 3 then .error { kind := .badParam, len := len, n := n }
  else if len % dataLen n ≠ 0 then .error { kind := .lengthMismatch, len := len, n := n }
  else if maxBits < len / dataLen n * n then .error { kind := .capacityExceeded, len := len, n := n }
  else .ok { out := encodeBlocks n (len / dataLen n) (bufSeq buf 0 len) }

/-- HAM_DECODE: the completion of word 0x00000001 (R116, R96). -/
def execHamDecode (s : State) : Host.Outcome State Fault Refusal :=
  .next (complete (hamDecode s.params.maxBits (operandN s) (operandLen s) (inBit s)) s)

/-- HAM_ENCODE: the completion of word 0x00000002 (R117, R96). -/
def execHamEncode (s : State) : Host.Outcome State Fault Refusal :=
  .next (complete (hamEncode s.params.maxBits (operandN s) (operandLen s) (inBit s)) s)

end Sys2Proof.Machine
end

