-- ==== Sys2Proof/Machine/Bus.lean ====
section
/-! DEFINITION. The host port (40_host_access.md): the register map (10_state.md R20), reads R84 to R89, writes R90 to R98,
and the response to one transaction (20_memory.md R51, R52). -/

namespace Sys2Proof.Machine

/-! ### The register map (R20) and the address map (R50) -/

/-- The byte offset of a register (R20). -/
def regOffset : Reg → Nat
  | .ctrl => 0x00 | .status => 0x04 | .cmd => 0x08 | .n => 0x0C | .inLen => 0x10 | .outLen => 0x14
  | .corrCount => 0x18 | .rem => 0x1C | .remLen => 0x20 | .errCode => 0x24 | .errBlock => 0x28
  | .errSyndrome => 0x2C | .errN => 0x30 | .errLen => 0x34 | .hamR => 0x38 | .hamM => 0x3C
  | .capMaxBits => 0x40 | .capMaxCorr => 0x44 | .id => 0x48

/-- The registers in the order of their offsets (R20). -/
def allRegs : List Reg :=
  [.ctrl, .status, .cmd, .n, .inLen, .outLen, .corrCount, .rem, .remLen, .errCode, .errBlock, .errSyndrome, .errN,
    .errLen, .hamR, .hamM, .capMaxBits, .capMaxCorr, .id]

/-- What the word at an aligned address belongs to (R50). -/
def targetOf (addr : Addr) : Target :=
  let a := addr.toNat
  if a < inBase then
    match allRegs[a / 4]? with
    | some r => .reg r
    | none => .reserved
  else if a < outBase then .inBuf ((a - inBase) / 4)
  else if a < corrBase then .outBuf ((a - outBase) / 4)
  else .corrBuf ((a - corrBase) / 4)

/-! ### Reads -/

/-- R84's first case: the targets whose reads are unspecified while BUSY (access code U of R20). A word beyond a buffer's
implemented size is none of them: it reads 0 whatever BUSY is (20_memory.md R58, 93_implementation_defined.md U8). -/
def unspecifiedWhileBusy (p : Config.Params) : Target → Bool
  | .reg r => [Reg.outLen, .corrCount, .rem, .remLen, .errCode, .errBlock, .errSyndrome, .errN, .errLen].contains r
  | .reserved | .inBuf _ => false
  | .outBuf w => decide (w < p.maxBits / 32)
  | .corrBuf e => decide (e < p.maxCorr)

/-- R85 and R86: the value of a register. CMD reads 0 (R30), CTRL reads `zext_32(ctrl_ie)` (R22). -/
def readReg (s : State) : Reg → Word
  | .ctrl => zext1 s.ctrlIe
  | .status => statusWord s
  | .cmd => 0
  | .n => s.n
  | .inLen => s.inLen
  | .outLen => s.outLen
  | .corrCount => s.corrCount
  | .rem => s.rem
  | .remLen => s.remLen
  | .errCode => s.errCode
  | .errBlock => s.errBlock
  | .errSyndrome => s.errSyndrome
  | .errN => s.errN
  | .errLen => s.errLen
  | .hamR => BitVec.ofNat 32 (parityBits s.n.toNat)
  | .hamM => BitVec.ofNat 32 (dataLen s.n.toNat)
  | .capMaxBits => BitVec.ofNat 32 s.params.maxBits
  | .capMaxCorr => BitVec.ofNat 32 s.params.maxCorr
  | .id => s.params.blockId

/-- R85 to R88: the value a read returns where it is specified. -/
def readTarget (s : State) : Target → Word
  | .reg r => readReg s r
  | .reserved => 0
  | .inBuf w => readWord s (inBase + 4 * w)
  | .outBuf w => readWord s (outBase + 4 * w)
  | .corrBuf e => readWord s (corrBase + 4 * e)

/-- R84: MemRead. While BUSY a read of R89 returns a fresh free word; its draw is counted, nothing else changes. -/
def busRead (t : Target) (s : State) : State :=
  if s.busy && unspecifiedWhileBusy s.params t then
    { s with response := some (.data (Config.freeWord s.draws)), draws := s.draws + 1 }
  else { s with response := some (.data (readTarget s t)) }

/-! ### Writes -/

/-- R98: a write that BUSY guards: while BUSY = 1 it is dropped and sets BUSY_VIOL. -/
def guarded (effect : State → State) (s : State) : State := if s.busy then setBusyViol s else effect s

/-- R90: with bit 1 set a soft reset, otherwise IE takes bit 0. -/
def writeCtrl (v : Word) (s : State) : State :=
  if v.getLsbD 1 then softReset s else { s with ctrlIe := v.getLsbD 0 }

/-- R95: a write of an IN_BUF word. A word that is not implemented ignores it, also while BUSY (R97, R98, log entry 5). -/
def writeInBuf (w : Nat) (v : Word) (s : State) : State :=
  if w < s.params.maxBits / 32 then guarded (fun s => { s with mem := s.mem.putWord (inBase + 4 * w) v }) s else s

/-- R90 to R97: the effect of a write on a register. -/
def writeReg (v : Word) : Reg → State → State
  | .ctrl => writeCtrl v
  | .status => clearFlags v
  | .cmd => guarded (acceptCommand v)
  | .n => guarded (fun s => { s with n := v })
  | .inLen => guarded (fun s => { s with inLen := v })
  | .outLen | .corrCount | .rem | .remLen | .errCode | .errBlock | .errSyndrome | .errN | .errLen
  | .hamR | .hamM | .capMaxBits | .capMaxCorr | .id => id

/-- R90 to R98: the effect of a write on a target. Reserved offsets, OUT_BUF and CORR_BUF ignore writes (R97). -/
def writeTarget (v : Word) : Target → State → State
  | .reg r => writeReg v r
  | .inBuf w => writeInBuf w v
  | .reserved | .outBuf _ | .corrBuf _ => id

/-- The effect of a write and its response OK (R51). -/
def busWrite (t : Target) (v : Word) (s : State) : State := { writeTarget v t s with response := some .ok }

/-! ### One transaction -/

/-- R51, R52: a transaction of another size or alignment gets BusError and changes no state. -/
def busStep (t : Txn) (s : State) : State :=
  if t.wellFormed then
    match t.kind with
    | .read => busRead (targetOf t.addr) s
    | .write => busWrite (targetOf t.addr) t.wdata s
  else { s with response := some .busError }

/-- R12: `MemRead(addr, 4)`. -/
def memReadTxn (addr : Addr) : Txn := { kind := .read, addr := addr, size := 4, wdata := 0 }

/-- R12: `MemWrite(addr, 4, v)`. -/
def memWriteTxn (addr : Addr) (v : Word) : Txn := { kind := .write, addr := addr, size := 4, wdata := v }

/-- The address of a register, as a bus address. -/
def regAddr (r : Reg) : Addr := BitVec.ofNat 16 (regOffset r)

/-- R81's target addresses: 0x4000 + 4w, 0x8000 + 4w, 0xC000 + 4e, or a register's offset. -/
def targetAddr : Target → Addr
  | .reg r => regAddr r
  | .reserved => 0x004C
  | .inBuf w => BitVec.ofNat 16 (inBase + 4 * w)
  | .outBuf w => BitVec.ofNat 16 (outBase + 4 * w)
  | .corrBuf e => BitVec.ofNat 16 (corrBase + 4 * e)

/-- R50: the block's offsets are relative to BLOCK_BASE. A system address outside the block's 64 KiB does not reach it. -/
def offsetOfSystem (p : Config.Params) (sys : Nat) : Option Addr :=
  if p.blockBase ≤ sys ∧ sys < p.blockBase + 2 ^ 16 then some (BitVec.ofNat 16 (sys - p.blockBase)) else none

end Sys2Proof.Machine
end

