-- ==== Sys2Proof/Machine/Crc.lean ====
section
/-! DEFINITION. crc32_verifier (42_crc32_verifier.md): the generator and the divider (R131, R133), the remainder check (R135),
and the commands CRC_VERIFY (R137), CRC_APPEND (R138) and CRC_REMAINDER (R139). No preset, no reflection, no final XOR
(R142). -/

namespace Sys2Proof.Machine

/-- R131: POLY, a leading 1 followed by the 32 bits of 0x04C11DB7, most significant bit first. -/
def poly : Bits := true :: (List.range 32).map (fun j => (0x04C11DB7#32).getLsbD (31 - j))

/-- XOR a divisor into the front of a sequence. -/
def xorFront : Bits → Bits → Bits
  | a :: w, b :: g => (a ^^ b) :: xorFront w g
  | w, _ => w

/-- One position of R133's scan: where `w[i] = 1`, XOR the divisor into `w` aligned at `i`. -/
def divideAt (g : Bits) (w : Bits) (i : Nat) : Bits :=
  if w.getD i false then w.take i ++ xorFront (w.drop i) g else w

/-- R133: gf2_poly_divider. Positions 0 to L − D, left to right; the trailing D − 1 bits are the remainder. -/
def mod2Divide (y g : Bits) : Bits :=
  if y.length < g.length then y
  else ((List.range (y.length - g.length + 1)).foldl (divideAt g) y).drop (y.length - (g.length - 1))

/-- R77: the REM format of a remainder sequence. -/
def remWord (r : Bits) : Word := BitVec.ofNat 32 (bitsToNat r)

/-- R135: remainder_check, every bit is 0. -/
def checkRemainder (r : Bits) : Bool := r.all (!·)

/-- R137: CrcVerify(L, IN_BUF). -/
def crcVerify (maxBits len : Nat) (buf : Nat → Bool) : CmdResult :=
  if maxBits < len then .error { kind := .capacityExceeded, len := len }
  else if len < 33 then .error { kind := .shortFrame, len := len }
  else
    let x := bufSeq buf 0 len
    let r := mod2Divide x poly
    let v := checkRemainder r
    .ok { out := if v then x.take (len - 32) else [], rem := remWord r, remLen := 32, valid := v }

/-- R138: CrcAppend(L, IN_BUF). -/
def crcAppend (maxBits len : Nat) (buf : Nat → Bool) : CmdResult :=
  if maxBits < len + 32 then .error { kind := .capacityExceeded, len := len }
  else
    let x := bufSeq buf 0 len
    let r := mod2Divide (x ++ List.replicate 32 false) poly
    .ok { out := x ++ r, rem := remWord r, remLen := 32 }

/-- R139: CrcRemainder(L, IN_BUF). -/
def crcRemainder (maxBits len : Nat) (buf : Nat → Bool) : CmdResult :=
  if maxBits < len then .error { kind := .capacityExceeded, len := len }
  else
    let r := mod2Divide (bufSeq buf 0 len) poly
    .ok { rem := remWord r, remLen := r.length, valid := checkRemainder r }

/-- CRC_VERIFY: the completion of word 0x00000003 (R137, R96). N is not read. -/
def execCrcVerify (s : State) : Host.Outcome State Fault Refusal :=
  .next (complete (crcVerify s.params.maxBits (operandLen s) (inBit s)) s)

/-- CRC_APPEND: the completion of word 0x00000004 (R138, R96). N is not read. -/
def execCrcAppend (s : State) : Host.Outcome State Fault Refusal :=
  .next (complete (crcAppend s.params.maxBits (operandLen s) (inBit s)) s)

/-- CRC_REMAINDER: the completion of word 0x00000005 (R139, R96). N is not read. -/
def execCrcRemainder (s : State) : Host.Outcome State Fault Refusal :=
  .next (complete (crcRemainder s.params.maxBits (operandLen s) (inBit s)) s)

end Sys2Proof.Machine
end

