-- ==== Sys2Proof/Machine/Dispatch.lean ====
section
/-! DEFINITION. The dispatch of 30_encoding.md R80 on a decoded command: one arm per constructor. -/

namespace Sys2Proof.Machine

-- The engine's completion of an accepted command (40_host_access.md R96).
def exec (i : Instr) (s : State) : Host.Outcome State Fault Refusal :=
  match i with
  | .hamDecode => Sys2Proof.Machine.execHamDecode s
  | .hamEncode => Sys2Proof.Machine.execHamEncode s
  | .crcVerify => Sys2Proof.Machine.execCrcVerify s
  | .crcAppend => Sys2Proof.Machine.execCrcAppend s
  | .crcRemainder => Sys2Proof.Machine.execCrcRemainder s

end Sys2Proof.Machine
end

