-- ==== Sys2Proof/Machine/Script.lean ====
section
/-! DEFINITION. Host scripts (30_encoding.md R81, R82): the bus transactions a script's statements expand to. EXPECT is an
annotation and no transaction (R81), so it has no statement here. -/

namespace Sys2Proof.Machine

/-- `WR`: one bus write (R81). -/
def wrMove (addr : Addr) (v : Word) : HostMove := .bus (memWriteTxn addr v)

/-- `RD`: one bus read (R81). -/
def rdMove (addr : Addr) : HostMove := .bus (memReadTxn addr)

/-- The writes `WR IN_BUF[w], Pack(b)[w]` of LDBITS for consecutive words from `w` (R82). -/
def packMoves (w : Nat) : List Word → List HostMove
  | [] => []
  | v :: vs => wrMove (targetAddr (.inBuf w)) v :: packMoves (w + 1) vs

/-- R81, R82: the expansion of one statement. -/
def expandStmt : Stmt → List HostMove
  | .wr a v => [wrMove a v]
  | .rd a => [rdMove a]
  | .cmd w => [wrMove (regAddr .cmd) w]
  | .wait => [.wait]
  | .run w => [wrMove (regAddr .cmd) w, .wait]
  | .ldbits b =>
    packMoves 0 (packWords ((b.length + 31) / 32) b) ++ [wrMove (regAddr .inLen) (BitVec.ofNat 32 b.length)]
  | .setn v => [wrMove (regAddr .n) v]

/-- The moves of a script. -/
def expandScript (script : List Stmt) : List HostMove := script.flatMap expandStmt

/-- The machine right after power-on reset with a script to run under schedule S0 (95_test_vectors.md section 5). -/
def startScript (script : List Stmt) : State := { State.reset with host := expandScript script }

end Sys2Proof.Machine
end

