-- ==== Sys2Proof/Machine/Agents.lean ====
section
/-! DEFINITION. The three agents of 10_state.md R16 and the order in which they move (20_memory.md R62,
70_reset_and_hazards.md R182). -/

namespace Sys2Proof.Machine

/-- R80, R96: the engine's completion of the word it holds. -/
def engineStep (s : State) : Host.Outcome State Fault Refusal :=
  match s.pending with
  | none => .fault .noPendingCommand
  | some w =>
    match decode w with
    | .ok i => exec i s
    | .error _ => .next (complete illegalCommand s)

/-- R96: the engine's step "is enabled exactly when STATUS.BUSY = 1"; otherwise its turn passes. -/
def engineTurn (s : State) : Host.Outcome State Fault Refusal := if s.busy then engineStep s else .next s

/-- The host's next move (R99). A WAIT reads STATUS and goes round again while the read shows BUSY = 1 (R82). -/
def hostTurn (s : State) : State :=
  match s.host with
  | [] => s
  | .bus t :: rest => busStep t { s with host := rest }
  | .wait :: rest =>
    busStep (memReadTxn (regAddr .status)) { s with host := if (statusWord s).getLsbD 0 then .wait :: rest else rest }
  | .waitIrq :: rest => { s with host := if irq s then rest else .waitIrq :: rest }

/-- The host has nothing to do but to wait for the engine. -/
def hostWaits (s : State) : Bool :=
  match s.host with
  | [] | .wait :: _ | .waitIrq :: _ => true
  | .bus _ :: _ => false

/-- One step: the agent that is next in `turns` moves. When the list is used up the schedule is S0 of 95_test_vectors.md:
"the completion is taken immediately before the first STATUS read of a `WAIT`", and at the end of a script (R192). -/
def nextStep (s : State) : Host.Outcome State Fault Refusal :=
  match s.turns with
  | .host :: ts => .next (hostTurn { s with turns := ts })
  | .engine :: ts => engineTurn { s with turns := ts }
  | .rst :: ts => .next (powerOnReset { s with turns := ts })
  | [] => if s.busy && hostWaits s then engineStep s else .next (hostTurn s)

end Sys2Proof.Machine
end

