-- ==== Sys2Proof/Machine/Step.lean ====
section
/-! DEFINITION. The machine's step, and where a command word stands for the step to run it. -/

namespace Sys2Proof.Machine

/-- One step of the total order of 20_memory.md R62: a host move, a completion or a reset. -/
def step (s : State) : Host.Outcome State Fault Refusal := nextStep s

/-- The state in which the very next step completes the command of word `w` (log entry 6): the word is accepted as a CMD write
accepts it (40_host_access.md R92) and the engine has the next turn. -/
def State.withFetchWord (s : State) (nbits w : Nat) : State := placeCommand (BitVec.ofNat 32 (w % 2 ^ nbits)) s

end Sys2Proof.Machine
end

