-- ==== Sys2Proof/Safety.lean ====
section
/-! DEFINITION. The words claims are stated in: what the next step is, what a completion leaves, the invariant of the machine,
and the hazards a host program must avoid (70_reset_and_hazards.md R184, R186). -/

namespace Sys2Proof.Machine

/-! ### What the next step is -/

/-- The bus transaction the next step performs, if it is a host transaction of the script (not a WAIT). -/
def nextTxn (s : State) : Option Txn :=
  match s.turns, s.host with
  | .host :: _, .bus t :: _ => some t
  | [], .bus t :: _ => some t
  | _, _ => none

/-- The next step is the engine's completion (R96). -/
def Completes (s : State) : Prop :=
  s.busy = true ∧ ((∃ ts, s.turns = .engine :: ts) ∨ (s.turns = [] ∧ hostWaits s = true))

/-- The next step is a legal host write of `v` to the target `tg`. -/
def Writes (s : State) (tg : Target) (v : Word) : Prop :=
  ∃ t, nextTxn s = some t ∧ t.wellFormed = true ∧ t.kind = .write ∧ targetOf t.addr = tg ∧ t.wdata = v

/-- The next step is a soft reset (R178): a CTRL write with bit 1 set. -/
def SoftResets (s : State) : Prop := ∃ v, Writes s (.reg .ctrl) v ∧ v.getLsbD 1 = true

/-- The next step is one of the two resets (R177, R178). -/
def Resets (s : State) : Prop := (∃ ts, s.turns = .rst :: ts) ∨ SoftResets s

/-- A host move that is a soft reset, wherever it stands in the script. -/
def isSoftReset : HostMove → Bool
  | .bus t => t.wellFormed && t.kind == .write && targetOf t.addr == .reg .ctrl && t.wdata.getLsbD 1
  | .wait | .waitIrq => false

/-- The writes that BUSY guards (40_host_access.md R98): CMD, N, IN_LEN and the implemented words of IN_BUF. -/
def isGuarded (p : Config.Params) : Target → Bool
  | .reg r => [Reg.cmd, .n, .inLen].contains r
  | .inBuf w => decide (w < p.maxBits / 32)
  | .reserved | .outBuf _ | .corrBuf _ => false

/-- The next step breaks R184 or R186: in the BUSY window it reads an unspecified value or makes a guarded write. -/
def hazard (s : State) : Bool :=
  s.busy && match nextTxn s with
    | some t => t.wellFormed && (match t.kind with
      | .read => unspecifiedWhileBusy s.params (targetOf t.addr)
      | .write => isGuarded s.params (targetOf t.addr))
    | none => false

/-! ### What a completion leaves -/

/-- The bytes a completion stores to: the implemented words of OUT_BUF and CORR_BUF (20_memory.md R56, R57, R60). -/
def storedByCompletion (p : Config.Params) (a : Nat) : Bool :=
  (decide (outBase ≤ a) && decide (a < outBase + p.maxBits / 8)) ||
    (decide (corrBase ≤ a) && decide (a < corrBase + 4 * p.maxCorr))

/-- What every completion leaves unchanged: the operands, CTRL, BUSY_VIOL, the environment, and every byte of memory but
those it stores to (R60, R61, 60_exceptions.md R159). -/
structure CompletionFrame (s t : State) : Prop where
  n : t.n = s.n
  inLen : t.inLen = s.inLen
  ctrlIe : t.ctrlIe = s.ctrlIe
  busyViol : t.busyViol = s.busyViol
  params : t.params = s.params
  host : t.host = s.host
  turns : t.turns = s.turns
  response : t.response = s.response
  draws : t.draws = s.draws
  memory : ∀ a, storedByCompletion s.params a = false → readByte t a = readByte s a

/-- `t` is `s` after a completion without error that gave these outputs (40_host_access.md R96), in terms of what the host
can read: registers, flags, every bit of OUT_BUF and every entry of CORR_BUF (30_encoding.md R76). -/
structure Succeeded (s t : State) (out : Bits) (corr : List (Nat × Nat)) (rem : Word) (remLen : Nat) (valid : Bool) :
    Prop where
  outFits : out.length ≤ s.params.maxBits
  outLen : t.outLen = BitVec.ofNat 32 out.length
  outBuf : ∀ j, j < s.params.maxBits → outBit t j = out.getD j false
  corrFits : corr.length ≤ s.params.maxCorr
  corrCount : t.corrCount = BitVec.ofNat 32 corr.length
  corrBuf : ∀ e, e < s.params.maxCorr →
    corrWord t e = ((corr.map fun c => BitVec.ofNat 32 (c.1 * 2 ^ 16 + c.2)).getD e 0#32)
  rem : t.rem = rem
  remLen : t.remLen = BitVec.ofNat 32 remLen
  errCode : t.errCode = 0
  errBlock : t.errBlock = 0
  errSyndrome : t.errSyndrome = 0
  errN : t.errN = 0
  errLen : t.errLen = 0
  busy : t.busy = false
  done : t.done = true
  err : t.err = false
  valid : t.valid = valid
  corrected : t.corrected = decide (0 < corr.length)
  pending : t.pending = none
  frame : CompletionFrame s t

/-- `t` is `s` after a completion that raised the error of this code with these fields (60_exceptions.md R159). -/
structure Errored (s t : State) (code : Nat) (block syn n len : Nat) : Prop where
  outLen : t.outLen = 0
  outBuf : ∀ j, j < s.params.maxBits → outBit t j = false
  corrCount : t.corrCount = 0
  corrBuf : ∀ e, e < s.params.maxCorr → corrWord t e = 0
  rem : t.rem = 0
  remLen : t.remLen = 0
  errCode : t.errCode = BitVec.ofNat 32 code
  errBlock : t.errBlock = BitVec.ofNat 32 block
  errSyndrome : t.errSyndrome = BitVec.ofNat 32 syn
  errN : t.errN = BitVec.ofNat 32 n
  errLen : t.errLen = BitVec.ofNat 32 len
  busy : t.busy = false
  done : t.done = true
  err : t.err = true
  valid : t.valid = false
  corrected : t.corrected = false
  pending : t.pending = none
  frame : CompletionFrame s t

/-! ### A command's input, as claims name it -/

/-- The input bit sequence `BufSeq(IN_BUF, 0, len)` (30_encoding.md R75). -/
def inputBits (s : State) (len : Nat) : Bits := (List.range len).map (inBit s)

/-- Block `b` of a stream of `n`-bit blocks (41_hamming_sec_decoder.md R110), or group `b` of `n` bits (R117). -/
def chunk (x : Bits) (n b : Nat) : Bits := (x.drop (b * n)).take n

/-- The bit at 1-based position `k` of a block (00_scope.md R9); positions outside it read 0. -/
def bitAt (blk : Bits) (k : Nat) : Bool := if k = 0 then false else blk.getD (k - 1) false

/-! ### The invariant -/

/-- What holds in every state a run from reset reaches. -/
structure Inv (s : State) : Prop where
  /-- 00_scope.md R7 -/
  legal : s.params.legal = true
  /-- 10_state.md R17's first invariant -/
  pendingIffBusy : s.pending.isSome = s.busy
  /-- R17's second invariant -/
  busyNotDone : s.busy = true → s.done = false
  /-- R26 to R28: acceptance clears the result flags -/
  busyFlags : s.busy = true → s.err = false ∧ s.valid = false ∧ s.corrected = false
  /-- R26: ERR is 1 exactly when the last completed command ended in an error -/
  errIff : s.busy = false → s.err = decide (s.errCode ≠ 0)
  /-- R28 -/
  correctedIff : s.busy = false → s.corrected = decide (0 < s.corrCount.toNat)
  /-- R27: a valid result has remainder 0 and no error -/
  validClean : s.valid = true → s.rem = 0 ∧ s.err = false
  /-- 60_exceptions.md R152 to R154 -/
  errCodeNamed : s.errCode.toNat = 0 ∨ (2 ≤ s.errCode.toNat ∧ s.errCode.toNat ≤ 7)
  /-- R36 -/
  outLenLe : s.outLen.toNat ≤ s.params.maxBits
  /-- R37 -/
  corrCountLe : s.corrCount.toNat ≤ s.params.maxCorr
  /-- R39 -/
  remLenLe : s.remLen.toNat ≤ 32
  /-- 30_encoding.md R77: REM bits 31 down to REM_LEN are 0 -/
  remFits : s.rem.toNat < 2 ^ s.remLen.toNat
  /-- R159: no output after an error -/
  errorNoOutput : s.errCode ≠ 0 → s.outLen = 0 ∧ s.corrCount = 0 ∧ s.rem = 0 ∧ s.remLen = 0
  /-- R41 to R44: error fields are 0 without an error -/
  noErrorFields : s.errCode = 0 → s.errBlock = 0 ∧ s.errSyndrome = 0 ∧ s.errN = 0 ∧ s.errLen = 0
  /-- the memory's canonical form -/
  memWf : s.mem.wf = true
  /-- every listed byte is an implemented byte of a buffer (20_memory.md R50) -/
  memImplemented : ∀ c ∈ s.mem.cells, implemented s.params c.1 = true
  /-- before the first completion after a reset nothing is known of OUT_BUF and CORR_BUF (R47) -/
  memUnspecified : s.mem.outEpoch ≠ none → ∀ c ∈ s.mem.cells, c.1 < outBase
  /-- R56: after a completion every bit of OUT_BUF at or beyond OUT_LEN is 0 -/
  outTail : s.mem.outEpoch = none → ∀ j, s.outLen.toNat ≤ j → j < s.params.maxBits → outBit s j = false
  /-- R57: after a completion every entry of CORR_BUF at or beyond CORR_COUNT is 0 -/
  corrTail : s.mem.outEpoch = none → ∀ e, s.corrCount.toNat ≤ e → e < s.params.maxCorr → corrWord s e = 0
  /-- free values are fresh: the buffers' draws lie before the next one (93_implementation_defined.md U1, U2) -/
  inEpochOld : s.mem.inEpoch < s.draws
  /-- the same for the result buffers -/
  outEpochOld : ∀ d, s.mem.outEpoch = some d → d < s.draws

end Sys2Proof.Machine
end

