-- ==== Sys2Proof/Certificates/Slice0/Obligations.lean ====
section
/-! DEFINITION. The statements for the provers. Each docstring names the rules of spec/ its statement formalises. -/

namespace Sys2Proof.Claims

open Sys2Proof.Machine

/-- The polynomial over GF(2) a bit sequence stands for (42_crc32_verifier.md R132): `Σ y[j]·x^(L−1−j)`. -/
noncomputable def toPoly (y : Bits) : Polynomial (ZMod 2) :=
  ∑ j ∈ Finset.range y.length, if y.getD j false then Polynomial.X ^ (y.length - 1 - j) else 0

/-- The words of 30_encoding.md R73 and R74: reserved bits set, or a reserved OP. -/
def IllegalWord (w : Word) : Prop := w.toNat / 16 ≠ 0 ∨ w.toNat % 16 = 0 ∨ 6 ≤ w.toNat % 16

/-- The block DecodeBlock returns for a correctable block (41_hamming_sec_decoder.md R113). -/
def correctedBlock (n : Nat) (blk : Bits) : Bits :=
  if syndrome n blk = 0 then blk else flipAt blk (syndrome n blk)

/-- The data bits of a stream of `cnt` correctable blocks (R116). -/
def decodedData (n cnt : Nat) (x : Bits) : Bits :=
  (List.range cnt).flatMap fun b => extract (correctedBlock n (chunk x n b))

/-- The correction report of a stream of `cnt` correctable blocks (R116): 0-based block, 1-based position. -/
def decodedCorrections (n cnt : Nat) (x : Bits) : List (Nat × Nat) :=
  (List.range cnt).filterMap fun b =>
    if syndrome n (chunk x n b) = 0 then none else some (b, syndrome n (chunk x n b))

/-- The nine result registers, all of OUT_BUF and CORR_BUF, and the three result flags are the same in two states. -/
structure SameResults (s t : State) : Prop where
  outLen : t.outLen = s.outLen
  corrCount : t.corrCount = s.corrCount
  rem : t.rem = s.rem
  remLen : t.remLen = s.remLen
  errCode : t.errCode = s.errCode
  errBlock : t.errBlock = s.errBlock
  errSyndrome : t.errSyndrome = s.errSyndrome
  errN : t.errN = s.errN
  errLen : t.errLen = s.errLen
  outBuf : ∀ j, j < s.params.maxBits → outBit t j = outBit s j
  corrBuf : ∀ e, e < s.params.maxCorr → corrWord t e = corrWord s e

end Sys2Proof.Claims

section
open Sys2Proof Sys2Proof.Machine Sys2Proof.Claims

/-! ### Encoding and decoding -/

/-- 30_encoding.md R72, R80: a word decodes to a command exactly when it is that command's word; the five words. -/
def Obligations.DecodesExactlyTheFiveWords : Prop :=
  (∀ (w : Word) (i : Instr), decode w = .ok i ↔ w = encode i) ∧
  encode .hamDecode = 0x00000001#32 ∧ encode .hamEncode = 0x00000002#32 ∧ encode .crcVerify = 0x00000003#32 ∧
  encode .crcAppend = 0x00000004#32 ∧ encode .crcRemainder = 0x00000005#32

/-- R83: the encoding examples. -/
def Obligations.EncodingExamples : Prop :=
  expandStmt (.cmd (encode .hamDecode)) =
    [.bus { kind := .write, addr := 0x0008#16, size := 4, wdata := 0x00000001#32 }] ∧
  expandStmt (.cmd (encode .crcRemainder)) =
    [.bus { kind := .write, addr := 0x0008#16, size := 4, wdata := 0x00000005#32 }] ∧
  decode 0x00000011#32 = .error (.reservedBits 1) ∧ opField 0x00000011#32 = 1 ∧
  decode 0x00000000#32 = .error (.reservedOp 0) ∧
  corrEntry (2, 5) = 0x00020005#32

/-- R73, R74, 60_exceptions.md R161: every word is one of the five or illegal, never both; an illegal word completes with
ILLEGAL_COMMAND (7) and every error field 0, whatever the operands are. -/
def Obligations.IllegalWordsCompleteWithCodeSeven : Prop :=
  (∀ w : Word, (∃ i, w = encode i) ∨ IllegalWord w) ∧ (∀ i : Instr, ¬ IllegalWord (encode i)) ∧
  ∀ (s : State) (ts : List Turn) (w : Word), s.params.legal = true → s.busy = true → s.pending = some w →
    s.turns = .engine :: ts → IllegalWord w →
    ∃ t, step s = .next t ∧ Errored { s with turns := ts } t 7 0 0 0 0

/-- R20, R50: each target's address belongs to that target, and every aligned address is some target's. -/
def Obligations.AddressMapIsExact : Prop :=
  (∀ r : Reg, targetOf (targetAddr (.reg r)) = .reg r) ∧
  (∀ w, w < 4096 → targetOf (targetAddr (.inBuf w)) = .inBuf w ∧ targetOf (targetAddr (.outBuf w)) = .outBuf w ∧
    targetOf (targetAddr (.corrBuf w)) = .corrBuf w) ∧
  (∀ a : Addr, a.toNat % 4 = 0 →
    (0x004C ≤ a.toNat ∧ a.toNat < 0x4000 ∧ targetOf a = .reserved) ∨ targetAddr (targetOf a) = a)

/-! ### The step -/

/-- R80, 40_host_access.md R96: a step in which the engine moves runs the decoded command on the state after the turn is
taken; with BUSY = 0 the turn passes.
The schedule as data, S0 after it and the passing turn are the model's choices (log entries 1 and 9). -/
def Obligations.EngineStepRunsTheDecodedCommand : Prop :=
  (∀ (s : State) (ts : List Turn) (w : Word) (i : Instr), s.turns = .engine :: ts → s.busy = true →
    s.pending = some w → decode w = .ok i → step s = exec i { s with turns := ts }) ∧
  (∀ (s : State) (w : Word) (i : Instr), s.turns = [] → hostWaits s = true → s.busy = true →
    s.pending = some w → decode w = .ok i → step s = exec i s) ∧
  (∀ (s : State) (ts : List Turn), s.turns = .engine :: ts → s.busy = false → step s = .next { s with turns := ts })

/-- 10_state.md R16, 20_memory.md R62: a step in which the host moves performs its next bus transaction, and no other.
Script and schedule as data are the model's choice (log entry 1). -/
def Obligations.HostStepIsOneTransaction : Prop :=
  (∀ (s : State) (ts : List Turn) (t : Txn) (rest : List HostMove), s.turns = .host :: ts → s.host = .bus t :: rest →
    step s = .next (busStep t { s with turns := ts, host := rest })) ∧
  (∀ (s : State) (t : Txn) (rest : List HostMove), s.turns = [] → s.host = .bus t :: rest →
    step s = .next (busStep t { s with host := rest }))

/-- 60_exceptions.md R151: no abnormal outcome stops the block; every step answers a next state.
The fault outside the premise is the model's choice (log entry 8). -/
def Obligations.NothingStopsTheBlock : Prop :=
  ∀ s : State, s.pending.isSome = s.busy → ∃ t, step s = .next t

/-- 10_state.md R47 and R17: the invariant holds after the power-on reset.
The reset values of the model's own fields are its choices (log entries 1 to 4). -/
def Obligations.ResetMeetsTheInvariant : Prop := Inv State.reset

/-- R17 and the rules named in `Inv`: every step keeps the invariant.
The clauses on draws and on the canonical form are about the model's own fields (log entries 2 and 3). -/
def Obligations.EveryStepKeepsTheInvariant : Prop :=
  ∀ s t : State, Inv s → step s = .next t → Inv t

/-- 70_reset_and_hazards.md R182, 10_state.md R45: whatever the schedule and the host do, unless a reset comes, an accepted
command completes after finitely many steps, and it completes with the operands it was accepted with.
A finite schedule followed by S0 is the model's form of weak fairness (log entry 1). -/
def Obligations.AcceptedCommandCompletesOnItsOperands : Prop :=
  ∀ s : State, Inv s → s.busy = true → .rst ∉ s.turns → (∀ m ∈ s.host, isSoftReset m = false) →
    ∃ k u t, k ≤ s.turns.length + s.host.length ∧ Sys2Proof.core.run k s = .next u ∧ Completes u ∧
      u.pending = s.pending ∧ u.n = s.n ∧ u.inLen = s.inLen ∧ (∀ a, readByte u a = readByte s a) ∧
      step u = .next t ∧ t.busy = false ∧ t.done = true

/-- R45, R98: in the BUSY window nothing changes but CTRL.IE, DONE and BUSY_VIOL. -/
def Obligations.BusyWindowKeepsCommandAndBuffers : Prop :=
  ∀ s t : State, s.busy = true → step s = .next t → t.busy = true →
    t.toBlock = { s.toBlock with ctrlIe := t.ctrlIe, done := t.done, busyViol := t.busyViol }

/-- 30_encoding.md R82: a WAIT at the head of the script stays there while BUSY = 1, and ends at the first read of STATUS with
BUSY = 0.
WAIT as one looping host move is the model's choice (log entry 10). -/
def Obligations.WaitEndsAtTheFirstIdleStatus : Prop :=
  ∀ (s : State) (ts : List Turn) (rest : List HostMove), s.turns = .host :: ts → s.host = .wait :: rest →
    step s = .next { s with
      turns := ts, host := if s.busy then .wait :: rest else rest, response := some (.data (statusWord s)) }

/-! ### Bus transactions -/

/-- 20_memory.md R52, 60_exceptions.md R166: only aligned words are legal; anything else answers BusError and changes no state. -/
def Obligations.BusErrorChangesNothing : Prop :=
  ∀ (s : State) (ts : List Turn) (t : Txn) (rest : List HostMove), s.turns = .host :: ts → s.host = .bus t :: rest →
    ((t.size ≠ 4 ∨ t.addr.toNat % 4 ≠ 0) →
      step s = .next { s with turns := ts, host := rest, response := some .busError }) ∧
    ((t.size = 4 ∧ t.addr.toNat % 4 = 0) → ∃ u, step s = .next u ∧ u.response ≠ some .busError)

/-- 20_memory.md R59: a read changes no architectural state, and neither the script nor the schedule. -/
def Obligations.ReadsChangeNoState : Prop :=
  ∀ (s : State) (t : Txn), t.kind = .read → (busStep t s).toBlock = s.toBlock ∧ (busStep t s).params = s.params ∧
    (busStep t s).host = s.host ∧ (busStep t s).turns = s.turns ∧ s.draws ≤ (busStep t s).draws

/-- 40_host_access.md R85: what reads of the always readable registers and of the reserved offsets return, BUSY or not. -/
def Obligations.RegisterReads : Prop :=
  ∀ s : State,
    let reads (a : Addr) (v : Word) : Prop := busStep (memReadTxn a) s = { s with response := some (.data v) }
    reads 0x0000#16 (if s.ctrlIe then 1 else 0) ∧
    reads 0x0004#16 (BitVec.ofNat 32 (s.busyViol.toNat * 2 ^ 5 + s.corrected.toNat * 2 ^ 4 + s.valid.toNat * 2 ^ 3 +
      s.err.toNat * 2 ^ 2 + s.done.toNat * 2 ^ 1 + s.busy.toNat)) ∧
    reads 0x0008#16 0 ∧ reads 0x000C#16 s.n ∧ reads 0x0010#16 s.inLen ∧
    reads 0x0038#16 (BitVec.ofNat 32 (parityBits s.n.toNat)) ∧ reads 0x003C#16 (BitVec.ofNat 32 (dataLen s.n.toNat)) ∧
    reads 0x0040#16 (BitVec.ofNat 32 s.params.maxBits) ∧ reads 0x0044#16 (BitVec.ofNat 32 (s.params.maxBits / 3)) ∧
    reads 0x0048#16 s.params.blockId ∧
    (∀ a : Addr, a.toNat % 4 = 0 → 0x004C ≤ a.toNat → a.toNat < 0x4000 → reads a 0) ∧
    (s.n = 0xFFFFFFFF#32 → reads 0x0038#16 32 ∧ reads 0x003C#16 0xFFFFFFDF#32) ∧
    (s.n = 7 → reads 0x0038#16 3 ∧ reads 0x003C#16 4)

/-- R86: with BUSY = 0 a read of a result register returns its field. -/
def Obligations.ResultRegisterReadsWhenIdle : Prop :=
  (∀ s : State, s.busy = false →
    let reads (a : Addr) (v : Word) : Prop := busStep (memReadTxn a) s = { s with response := some (.data v) }
    reads 0x0014#16 s.outLen ∧ reads 0x0018#16 s.corrCount ∧ reads 0x001C#16 s.rem ∧ reads 0x0020#16 s.remLen ∧
    reads 0x0024#16 s.errCode ∧ reads 0x0028#16 s.errBlock ∧ reads 0x002C#16 s.errSyndrome ∧ reads 0x0030#16 s.errN ∧
    reads 0x0034#16 s.errLen) ∧
  (State.reset.outLen = 0 ∧ State.reset.corrCount = 0 ∧ State.reset.rem = 0 ∧ State.reset.remLen = 0 ∧
    State.reset.errCode = 0 ∧ State.reset.errBlock = 0 ∧ State.reset.errSyndrome = 0 ∧ State.reset.errN = 0 ∧
    State.reset.errLen = 0)

/-- R89: in the BUSY window each read of a result register, of an implemented OUT_BUF word or of an implemented CORR_BUF entry
returns the word of a fresh draw, which nothing constrains, and changes nothing else; a second read is another draw.
The draws are the model's form of an unspecified value (log entry 2). The words beyond the implemented size read 0 in the BUSY
window too (R58): BufferReads says so (log entry 7). -/
def Obligations.BusyReadsAreFreshDraws : Prop :=
  ∀ (s : State) (a : Addr), s.busy = true → a.toNat % 4 = 0 →
    ((0x0014 ≤ a.toNat ∧ a.toNat ≤ 0x0034) ∨
      (0x8000 ≤ a.toNat ∧ a.toNat < 0xC000 ∧ (a.toNat - 0x8000) / 4 < s.params.maxBits / 32) ∨
      (0xC000 ≤ a.toNat ∧ (a.toNat - 0xC000) / 4 < s.params.maxCorr)) →
    busStep (memReadTxn a) s = { s with response := some (.data (Config.freeWord s.draws)), draws := s.draws + 1 } ∧
    busStep (memReadTxn a) (busStep (memReadTxn a) s) =
      { s with response := some (.data (Config.freeWord (s.draws + 1))), draws := s.draws + 2 }

/-- R87, R88, 20_memory.md R58: reads of the three buffers, bit by bit, and 0 beyond their implemented size, there also in the
BUSY window (for OUT_BUF and CORR_BUF: log entry 7). -/
def Obligations.BufferReads : Prop :=
  ∀ (s : State) (w : Nat), s.params.legal = true → w < 4096 →
    (∃ v, busStep (memReadTxn (BitVec.ofNat 16 (0x4000 + 4 * w))) s = { s with response := some (.data v) } ∧
      (w < s.params.maxBits / 32 → ∀ i, i < 32 → v.getLsbD i = inBit s (32 * w + 31 - i)) ∧
      (s.params.maxBits / 32 ≤ w → v = 0)) ∧
    (s.busy = false →
      (∃ v, busStep (memReadTxn (BitVec.ofNat 16 (0x8000 + 4 * w))) s = { s with response := some (.data v) } ∧
        (w < s.params.maxBits / 32 → ∀ i, i < 32 → v.getLsbD i = outBit s (32 * w + 31 - i)) ∧
        (s.params.maxBits / 32 ≤ w → v = 0)) ∧
      (∃ v, busStep (memReadTxn (BitVec.ofNat 16 (0xC000 + 4 * w))) s = { s with response := some (.data v) } ∧
        (w < s.params.maxCorr → v = corrWord s w) ∧ (s.params.maxCorr ≤ w → v = 0))) ∧
    (s.params.maxBits / 32 ≤ w →
      busStep (memReadTxn (BitVec.ofNat 16 (0x8000 + 4 * w))) s = { s with response := some (.data 0) }) ∧
    (s.params.maxCorr ≤ w →
      busStep (memReadTxn (BitVec.ofNat 16 (0xC000 + 4 * w))) s = { s with response := some (.data 0) })

/-- 20_memory.md R54: bit packing, in both directions, and its example. -/
def Obligations.BitPackingIsMsbFirst : Prop :=
  (∀ (s : State) (base j : Nat), bufBit s base j = (readWord s (base + 4 * (j / 32))).getLsbD (31 - j % 32)) ∧
  (∀ (s : State) (base w i : Nat), i < 32 → (readWord s (base + 4 * w)).getLsbD i = bufBit s base (32 * w + 31 - i)) ∧
  (∀ (b : Bits) (j : Nat), j < 32 → (packWord b).getLsbD (31 - j) = b.getD j false) ∧
  packWord [true, false, true, true] = 0xB0000000#32

/-- 40_host_access.md R95: a write of an IN_BUF word: its bits, every other byte unchanged; dropped while BUSY; ignored beyond
the implemented size.
Beyond the implemented size while BUSY: log entry 5 (DEDUCED). -/
def Obligations.InBufWrites : Prop :=
  ∀ (s : State) (w : Nat) (v : Word), s.params.legal = true → s.mem.wf = true → w < 4096 →
    let t := busStep (memWriteTxn (BitVec.ofNat 16 (0x4000 + 4 * w)) v) s
    (s.busy = false → w < s.params.maxBits / 32 →
      t = { s with mem := t.mem, response := some .ok } ∧
      (∀ i, i < 32 → inBit t (32 * w + 31 - i) = v.getLsbD i) ∧
      (∀ a, ¬ (0x4000 + 4 * w ≤ a ∧ a < 0x4000 + 4 * w + 4) → readByte t a = readByte s a)) ∧
    (s.busy = true → w < s.params.maxBits / 32 → t = { s with busyViol := true, response := some .ok }) ∧
    (s.params.maxBits / 32 ≤ w → t = { s with response := some .ok })

/-- R90: a CTRL write, accepted whatever BUSY is. -/
def Obligations.CtrlWrites : Prop :=
  ∀ (s : State) (v : Word),
    (v.getLsbD 1 = false →
      busStep (memWriteTxn 0x0000#16 v) s = { s with ctrlIe := v.getLsbD 0, response := some .ok }) ∧
    (v.getLsbD 1 = true →
      busStep (memWriteTxn 0x0000#16 v) s = { softReset s with response := some .ok } ∧
      (busStep (memWriteTxn 0x0000#16 v) s).ctrlIe = false) ∧
    (busStep (memWriteTxn 0x0000#16 1) s).ctrlIe = true ∧ (busStep (memWriteTxn 0x0000#16 3) s).ctrlIe = false

/-- R91: a STATUS write clears DONE and BUSY_VIOL where bits 1 and 5 are 1, and nothing else; `irq` drops with DONE. -/
def Obligations.StatusWrites : Prop :=
  ∀ (s : State) (v : Word),
    busStep (memWriteTxn 0x0004#16 v) s =
      { s with
        done := if v.getLsbD 1 then false else s.done
        busyViol := if v.getLsbD 5 then false else s.busyViol
        response := some .ok } ∧
    (v.getLsbD 1 = true → irq (busStep (memWriteTxn 0x0004#16 v) s) = false) ∧
    busStep (memWriteTxn 0x0004#16 0) s = { s with response := some .ok } ∧
    busStep (memWriteTxn 0x0004#16 0x22) s = { s with done := false, busyViol := false, response := some .ok }

/-- R92: a CMD write with BUSY = 0 accepts any word; with BUSY = 1 it is a guarded write. -/
def Obligations.CmdWriteAccepts : Prop :=
  ∀ (s : State) (w : Word),
    (s.busy = false →
      busStep (memWriteTxn 0x0008#16 w) s =
        { s with
          pending := some w, busy := true, done := false, err := false, valid := false, corrected := false
          response := some .ok } ∧
      irq (busStep (memWriteTxn 0x0008#16 w) s) = false) ∧
    (s.busy = true → busStep (memWriteTxn 0x0008#16 w) s = { s with busyViol := true, response := some .ok })

/-- R93, R94: writes of N and IN_LEN store any value as it is; a length above MAX_BITS is stored, and every command then
reports CAPACITY_EXCEEDED. -/
def Obligations.OperandWritesStoreAnyValue : Prop :=
  ∀ (s : State) (v : Word),
    (s.busy = false →
      busStep (memWriteTxn 0x000C#16 v) s = { s with n := v, response := some .ok } ∧
      busStep (memWriteTxn 0x0010#16 v) s = { s with inLen := v, response := some .ok } ∧
      (s.params.maxBits < v.toNat → ∀ i, ∃ t, exec i (busStep (memWriteTxn 0x0010#16 v) s) = .next t ∧ t.errCode = 6)) ∧
    (s.busy = true →
      busStep (memWriteTxn 0x000C#16 v) s = { s with busyViol := true, response := some .ok } ∧
      busStep (memWriteTxn 0x0010#16 v) s = { s with busyViol := true, response := some .ok })

/-- R98: a guarded write in the BUSY window only sets BUSY_VIOL, and BUSY_VIOL stays set until a STATUS write with bit 5 or a
reset clears it. -/
def Obligations.GuardedWritesOnlySetBusyViol : Prop :=
  (∀ (s : State) (a : Addr) (v : Word), s.busy = true → a.toNat % 4 = 0 →
    (a.toNat = 0x0008 ∨ a.toNat = 0x000C ∨ a.toNat = 0x0010 ∨
      (0x4000 ≤ a.toNat ∧ a.toNat < 0x8000 ∧ (a.toNat - 0x4000) / 4 < s.params.maxBits / 32)) →
    busStep (memWriteTxn a v) s = { s with busyViol := true, response := some .ok }) ∧
  (∀ s t : State, step s = .next t → s.busyViol = true → t.busyViol = false →
    (∃ v, Writes s (.reg .status) v ∧ v.getLsbD 5 = true) ∨ Resets s)

/-- R97: writes with no effect, whatever BUSY is.
R97 is followed also for IN_BUF while BUSY (log entry 5). -/
def Obligations.WritesWithNoEffect : Prop :=
  ∀ (s : State) (a : Addr) (v : Word), a.toNat % 4 = 0 →
    ((0x0014 ≤ a.toNat ∧ a.toNat ≤ 0x0048) ∨ (0x004C ≤ a.toNat ∧ a.toNat < 0x4000) ∨ 0x8000 ≤ a.toNat ∨
      (0x4000 ≤ a.toNat ∧ a.toNat < 0x8000 ∧ s.params.maxBits / 32 ≤ (a.toNat - 0x4000) / 4)) →
    busStep (memWriteTxn a v) s = { s with response := some .ok }

/-! ### The life of each flag and register, over all steps -/

/-- 10_state.md R24: BUSY rises only by an accepted CMD write and falls only by a completion or a reset. -/
def Obligations.BusyFollowsTheCommand : Prop :=
  ∀ s t : State, step s = .next t →
    (s.busy = false → t.busy = true → ∃ w, Writes s (.reg .cmd) w ∧ t.pending = some w) ∧
    (s.busy = true → t.busy = false → Completes s ∨ Resets s) ∧
    (Completes s → t.busy = false)

/-- R25: DONE is set by every completion and by nothing else; it is cleared by the next acceptance, a STATUS write with bit 1,
or a reset, and by nothing else. -/
def Obligations.DoneFollowsCompletions : Prop :=
  ∀ s t : State, step s = .next t →
    (Completes s → t.done = true) ∧
    (s.done = false → t.done = true → Completes s) ∧
    (s.done = true → t.done = false →
      (∃ w, s.busy = false ∧ Writes s (.reg .cmd) w) ∨ (∃ v, Writes s (.reg .status) v ∧ v.getLsbD 1 = true) ∨ Resets s) ∧
    ((∃ w, s.busy = false ∧ Writes s (.reg .cmd) w) → t.done = false) ∧
    ((∃ v, Writes s (.reg .status) v ∧ v.getLsbD 1 = true) → t.done = false) ∧
    (Resets s → t.done = false)

/-- 60_exceptions.md R168, R169: `irq` rises only by a completion with IE = 1 or by setting IE while DONE = 1. -/
def Obligations.IrqRisesOnlyByCompletionOrEnable : Prop :=
  ∀ s t : State, step s = .next t → irq s = false → irq t = true →
    (Completes s ∧ s.ctrlIe = true) ∨
    (s.done = true ∧ s.ctrlIe = false ∧ ∃ v, Writes s (.reg .ctrl) v ∧ v.getLsbD 0 = true ∧ v.getLsbD 1 = false)

/-- 20_memory.md R55, R61, 10_state.md R31, R32: N, IN_LEN and the bytes of IN_BUF change only by an unguarded host write to
them or by a reset (IN_BUF only by the power-on reset). -/
def Obligations.OperandsChangeOnlyByTheHost : Prop :=
  ∀ s t : State, s.params.legal = true → s.mem.wf = true → step s = .next t →
    (t.n ≠ s.n → (s.busy = false ∧ Writes s (.reg .n) t.n) ∨ Resets s) ∧
    (t.inLen ≠ s.inLen → (s.busy = false ∧ Writes s (.reg .inLen) t.inLen) ∨ Resets s) ∧
    (∀ a, a < 0x8000 → readByte t a ≠ readByte s a →
      (s.busy = false ∧ ∃ w v, Writes s (.inBuf w) v ∧ 0x4000 + 4 * w ≤ a ∧ a < 0x4000 + 4 * w + 4) ∨
      ∃ ts, s.turns = .rst :: ts)

/-- 20_memory.md R56, R57, 70_reset_and_hazards.md R187: the results stay as they are until the next completion or reset. -/
def Obligations.ResultsStayUntilTheNextCompletion : Prop :=
  ∀ s t : State, s.params.legal = true → s.mem.wf = true → step s = .next t → ¬ Completes s → ¬ Resets s →
    SameResults s t

/-- 60_exceptions.md R153, R154: no step writes a code that is not named, and INVALID_CHARACTER (1) is never raised. -/
def Obligations.OnlyNamedErrorCodesAreWritten : Prop :=
  ∀ s t : State, step s = .next t → t.errCode = s.errCode ∨ t.errCode.toNat ∈ [0, 2, 3, 4, 5, 6, 7]

/-! ### Reset -/

/-- 70_reset_and_hazards.md R177: the power-on reset, at any point: every register 0, no command, every buffer byte the free byte
of a fresh draw, `irq` = 0, and STATUS reads 0.
Free bytes and draws are the model's form of unspecified contents (log entry 3). -/
def Obligations.PowerOnResetClearsEverything : Prop :=
  ∀ (s : State) (ts : List Turn), s.turns = .rst :: ts → ∃ t, step s = .next t ∧
    t.toBlock = { State.reset.toBlock with mem := t.mem } ∧
    (∀ a, implemented s.params a = true → readByte t a = Config.freeByte s.draws a) ∧
    irq t = false ∧ statusWord t = 0 ∧
    t.params = s.params ∧ t.host = s.host ∧ t.turns = ts ∧ t.response = s.response ∧ t.draws = s.draws + 1

/-- R178: the soft reset: every register 0, no command, IN_BUF unchanged, OUT_BUF and CORR_BUF the free bytes of a fresh draw;
CTRL then reads 0.
Free bytes and draws are the model's form of unspecified contents (log entry 3). -/
def Obligations.SoftResetKeepsInBuf : Prop :=
  ∀ (s : State) (v : Word), s.params.legal = true → v.getLsbD 1 = true →
    let t := busStep (memWriteTxn 0x0000#16 v) s
    t.toBlock = { State.reset.toBlock with mem := t.mem } ∧
    (∀ a, a < 0x8000 → readByte t a = readByte s a) ∧
    (∀ a, 0x8000 ≤ a → implemented s.params a = true → readByte t a = Config.freeByte s.draws a) ∧
    readReg t .ctrl = 0 ∧ t.params = s.params ∧ t.host = s.host ∧ t.turns = s.turns ∧ t.draws = s.draws + 1

/-- 10_state.md R47: the values after the power-on reset; STATUS, N, HAM_R and HAM_M read 0 and `irq` is 0. -/
def Obligations.ResetValues : Prop :=
  statusWord State.reset = 0 ∧ irq State.reset = false ∧ State.reset.pending = none ∧ State.reset.ctrlIe = false ∧
  State.reset.n = 0 ∧ State.reset.inLen = 0 ∧ readReg State.reset .hamR = 0 ∧ readReg State.reset .hamM = 0

/-- 70_reset_and_hazards.md R180: what each command does when it is issued at once after a reset, with N = IN_LEN = 0. -/
def Obligations.CommandsIssuedAtOnceAfterReset : Prop :=
  ∀ s : State, s.params.legal = true → s.n = 0 → s.inLen = 0 →
    (∃ t, exec .crcVerify s = .next t ∧ Errored s t 4 0 0 0 0) ∧
    (∃ t, exec .crcAppend s = .next t ∧ Succeeded s t (List.replicate 32 false) [] 0 32 false) ∧
    (∃ t, exec .crcRemainder s = .next t ∧ Succeeded s t [] [] 0 0 true) ∧
    (∃ t, exec .hamDecode s = .next t ∧ Errored s t 5 0 0 0 0) ∧
    (∃ t, exec .hamEncode s = .next t ∧ Errored s t 5 0 0 0 0)

/-! ### Every completion -/

/-- 40_host_access.md R96, 20_memory.md R60, R61: every command completes from every state, ends BUSY, sets DONE, holds no
command, and leaves operands, CTRL, BUSY_VIOL and every byte it does not store to as they were. -/
def Obligations.EveryCommandCompletesInItsFrame : Prop :=
  ∀ (i : Instr) (s : State), ∃ t, exec i s = .next t ∧ CompletionFrame s t ∧ t.busy = false ∧ t.done = true ∧
    t.pending = none

/-- R96, 70_reset_and_hazards.md R188: a command's results depend only on N, IN_LEN and the first IN_LEN bits of IN_BUF, and those
of a CRC command not on N. -/
def Obligations.ResultsDependOnOperandsOnly : Prop :=
  ∀ (i : Instr) (s₁ s₂ t₁ t₂ : State), s₁.params.legal = true → s₂.params.maxBits = s₁.params.maxBits →
    (s₂.n = s₁.n ∨ i = .crcVerify ∨ i = .crcAppend ∨ i = .crcRemainder) → s₂.inLen = s₁.inLen →
    (∀ j, j < s₁.inLen.toNat → inBit s₂ j = inBit s₁ j) →
    exec i s₁ = .next t₁ → exec i s₂ = .next t₂ →
    SameResults t₁ t₂ ∧ t₂.err = t₁.err ∧ t₂.valid = t₁.valid ∧ t₂.corrected = t₁.corrected

/-! ### hamming_sec_decoder -/

/-- 41_hamming_sec_decoder.md R106: r(n) is the least r with 2^r ≥ n + 1, at most 32 for a 32-bit n, floor(log2 n) + 1 for n ≥ 1;
the rule's table of r and m. R107: m(n) = n − r(n) is never negative, at least 1 for n ≥ 3, and non-decreasing. -/
def Obligations.ParityCountIsLeast : Prop :=
  (∀ n, n + 1 ≤ 2 ^ parityBits n) ∧ (∀ n r, n + 1 ≤ 2 ^ r → parityBits n ≤ r) ∧
  (∀ n, n < 2 ^ 32 → parityBits n ≤ 32) ∧ (∀ n, 1 ≤ n → parityBits n = Nat.log 2 n + 1) ∧
  (∀ n, dataLen n = n - parityBits n ∧ parityBits n ≤ n) ∧ (∀ n, 3 ≤ n → 1 ≤ dataLen n) ∧
  (∀ n n', n ≤ n' → dataLen n ≤ dataLen n') ∧
  (∀ p ∈ [(0, 0, 0), (1, 1, 0), (2, 2, 0), (3, 2, 1), (4, 3, 1), (5, 3, 2), (6, 3, 3), (7, 3, 4), (8, 4, 4), (10, 4, 6),
      (15, 4, 11), (16, 5, 11), (31, 5, 26), (32, 6, 26), (4096, 13, 4083), (0xFFFFFFFF, 32, 4294967263)],
    parityBits p.1 = p.2.1 ∧ dataLen p.1 = p.2.2)

/-- R108: the parity positions of a block are 2^0, …, 2^(r−1), so r of its positions are parity positions and m are data
positions. -/
def Obligations.ParityPositionsArePowersOfTwo : Prop :=
  (∀ k, 1 ≤ k → (isParityPos k = true ↔ ∃ i, k = 2 ^ i)) ∧
  (∀ n k, 1 ≤ k → k ≤ n → (isParityPos k = true ↔ ∃ i, i < parityBits n ∧ k = 2 ^ i)) ∧
  (∀ n, (List.range' 1 n).countP isParityPos = parityBits n) ∧
  (∀ n, (List.range' 1 n).countP (fun k => !isParityPos k) = dataLen n)

/-- R112: the syndrome is the XOR of the positions of the set bits; flipping position k changes it by ⊕ k; one set bit at k has
syndrome k. -/
def Obligations.SyndromeIsXorOfSetPositions : Prop :=
  ∀ (n : Nat) (blk : Bits), blk.length = n →
    syndrome n blk = ((List.range' 1 n).filter (bitAt blk)).foldl (· ^^^ ·) 0 ∧
    (∀ k, 1 ≤ k → k ≤ n → syndrome n (flipAt blk k) = syndrome n blk ^^^ k) ∧
    (∀ k, 1 ≤ k → k ≤ n → (∀ j, bitAt blk j = decide (j = k)) → syndrome n blk = k)

/-- R113: the decode policy, with the flip said bit by bit, and where the failure can happen. -/
def Obligations.BlockDecodePolicy : Prop :=
  ∀ (n : Nat) (blk : Bits), blk.length = n →
    (syndrome n blk = 0 → decodeBlock n blk = .ok (blk, none)) ∧
    (1 ≤ syndrome n blk → syndrome n blk ≤ n → ∃ blk', decodeBlock n blk = .ok (blk', some (syndrome n blk)) ∧
      blk'.length = n ∧ ∀ k, 1 ≤ k → k ≤ n → bitAt blk' k = (bitAt blk k ^^ decide (k = syndrome n blk))) ∧
    (n < syndrome n blk → decodeBlock n blk = .error (syndrome n blk) ∧ syndrome n blk ≤ 2 ^ parityBits n - 1 ∧
      n < 2 ^ parityBits n - 1)

/-- R114: extraction takes the data positions in ascending order, m(n) bits, and no correction at a parity position changes it. -/
def Obligations.ExtractionTakesDataPositions : Prop :=
  ∀ (n : Nat) (blk : Bits), blk.length = n →
    extract blk = ((List.range' 1 n).filter (fun k => !isParityPos k)).map (bitAt blk) ∧
    (extract blk).length = dataLen n ∧
    (∀ k, 1 ≤ k → k ≤ n → isParityPos k = true → extract (flipAt blk k) = extract blk)

/-- R115, R118: an encoded block has n bits, the data in order at the data positions, at each parity position the XOR of the
other positions its check covers; its syndrome is 0 and it decodes back. -/
def Obligations.EncodedBlockIsACodeword : Prop :=
  ∀ (n : Nat) (d : Bits), d.length = dataLen n →
    (encodeBlock n d).length = n ∧
    extract (encodeBlock n d) = d ∧
    (∀ i, i < parityBits n → bitAt (encodeBlock n d) (2 ^ i) =
      (((List.range' 1 n).filter (fun k => decide (k &&& 2 ^ i ≠ 0 ∧ k ≠ 2 ^ i))).map
        (bitAt (encodeBlock n d))).foldl (· ^^ ·) false) ∧
    syndrome n (encodeBlock n d) = 0

/-- R120: two flipped bits of a codeword: the syndrome is a ⊕ b; in range it is miscorrected and the data is wrong, out of range
it fails. -/
def Obligations.DoubleErrorsMiscorrectOrFail : Prop :=
  ∀ (n : Nat) (d : Bits) (a b : Nat), 3 ≤ n → d.length = dataLen n → 1 ≤ a → a ≤ n → 1 ≤ b → b ≤ n → a ≠ b →
    let blk := flipAt (flipAt (encodeBlock n d) a) b
    syndrome n blk = a ^^^ b ∧ a ^^^ b ≠ 0 ∧
    (a ^^^ b ≤ n → decodeBlock n blk = .ok (flipAt blk (a ^^^ b), some (a ^^^ b)) ∧ extract (flipAt blk (a ^^^ b)) ≠ d) ∧
    (n < a ^^^ b → decodeBlock n blk = .error (a ^^^ b))

/-- R121: a block can fail exactly when n < 2^r − 1, that is, when n is not of the form 2^r − 1; the rule's block with two set
bits fails with syndrome 2^r − 1; the rule's example. -/
def Obligations.UncorrectableExactlyOffPerfectLengths : Prop :=
  (∀ n, 3 ≤ n →
    ((∃ blk s, blk.length = n ∧ decodeBlock n blk = .error s) ↔ n < 2 ^ parityBits n - 1) ∧
    (n < 2 ^ parityBits n - 1 ↔ ¬ ∃ r, n = 2 ^ r - 1) ∧
    (n < 2 ^ parityBits n - 1 → ∀ blk, blk.length = n →
      (∀ k, bitAt blk k = decide (k = 2 ^ (parityBits n - 1) ∨ k = 2 ^ (parityBits n - 1) - 1)) →
      decodeBlock n blk = .error (2 ^ parityBits n - 1))) ∧
  decodeBlock 10 [false, false, true, false, false, false, false, true, false, false] = .error 11

/-- R116: HAM_DECODE completes without error on every stream of correctable blocks, with the data and the corrections the rule
gives; the empty stream is one. -/
def Obligations.HamDecodeCompletes : Prop :=
  ∀ s : State, s.params.legal = true → s.inLen.toNat ≤ s.params.maxBits → 3 ≤ s.n.toNat →
    s.inLen.toNat % s.n.toNat = 0 →
    (∀ b, b < s.inLen.toNat / s.n.toNat →
      syndrome s.n.toNat (chunk (inputBits s s.inLen.toNat) s.n.toNat b) ≤ s.n.toNat) →
    ∃ t, exec .hamDecode s = .next t ∧
      Succeeded s t (decodedData s.n.toNat (s.inLen.toNat / s.n.toNat) (inputBits s s.inLen.toNat))
        (decodedCorrections s.n.toNat (s.inLen.toNat / s.n.toNat) (inputBits s s.inLen.toNat)) 0 0 false ∧
      (decodedData s.n.toNat (s.inLen.toNat / s.n.toNat) (inputBits s s.inLen.toNat)).length =
        s.inLen.toNat / s.n.toNat * dataLen s.n.toNat

/-- R116, 60_exceptions.md R155 to R157, R160, R162: the errors of HAM_DECODE in their order, the failing block the lowest one. -/
def Obligations.HamDecodeErrors : Prop :=
  ∀ s : State, s.params.legal = true →
    (s.params.maxBits < s.inLen.toNat →
      ∃ t, exec .hamDecode s = .next t ∧ Errored s t 6 0 0 s.n.toNat s.inLen.toNat) ∧
    (s.inLen.toNat ≤ s.params.maxBits → s.n.toNat < 3 →
      ∃ t, exec .hamDecode s = .next t ∧ Errored s t 5 0 0 s.n.toNat s.inLen.toNat) ∧
    (s.inLen.toNat ≤ s.params.maxBits → 3 ≤ s.n.toNat → s.inLen.toNat % s.n.toNat ≠ 0 →
      ∃ t, exec .hamDecode s = .next t ∧ Errored s t 2 0 0 s.n.toNat s.inLen.toNat) ∧
    (s.inLen.toNat ≤ s.params.maxBits → 3 ≤ s.n.toNat → s.inLen.toNat % s.n.toNat = 0 →
      ∀ b, b < s.inLen.toNat / s.n.toNat →
        s.n.toNat < syndrome s.n.toNat (chunk (inputBits s s.inLen.toNat) s.n.toNat b) →
        (∀ c, c < b → syndrome s.n.toNat (chunk (inputBits s s.inLen.toNat) s.n.toNat c) ≤ s.n.toNat) →
        ∃ t, exec .hamDecode s = .next t ∧
          Errored s t 3 (b + 1) (syndrome s.n.toNat (chunk (inputBits s s.inLen.toNat) s.n.toNat b)) s.n.toNat
            s.inLen.toNat)

/-- R117: HAM_ENCODE completes without error on every input that is a multiple of m(n) and whose output fits; the output is the
concatenation of the encoded groups. -/
def Obligations.HamEncodeCompletes : Prop :=
  ∀ s : State, s.params.legal = true → s.inLen.toNat ≤ s.params.maxBits → 3 ≤ s.n.toNat →
    s.inLen.toNat % dataLen s.n.toNat = 0 →
    s.inLen.toNat / dataLen s.n.toNat * s.n.toNat ≤ s.params.maxBits →
    ∃ t, exec .hamEncode s = .next t ∧
      Succeeded s t ((List.range (s.inLen.toNat / dataLen s.n.toNat)).flatMap fun g =>
        encodeBlock s.n.toNat (chunk (inputBits s s.inLen.toNat) (dataLen s.n.toNat) g)) [] 0 0 false ∧
      t.outLen = BitVec.ofNat 32 (s.inLen.toNat / dataLen s.n.toNat * s.n.toNat)

/-- R117, R155, R157, R160, R162: the errors of HAM_ENCODE in their order. -/
def Obligations.HamEncodeErrors : Prop :=
  ∀ s : State, s.params.legal = true →
    (s.params.maxBits < s.inLen.toNat →
      ∃ t, exec .hamEncode s = .next t ∧ Errored s t 6 0 0 s.n.toNat s.inLen.toNat) ∧
    (s.inLen.toNat ≤ s.params.maxBits → s.n.toNat < 3 →
      ∃ t, exec .hamEncode s = .next t ∧ Errored s t 5 0 0 s.n.toNat s.inLen.toNat) ∧
    (s.inLen.toNat ≤ s.params.maxBits → 3 ≤ s.n.toNat → s.inLen.toNat % dataLen s.n.toNat ≠ 0 →
      ∃ t, exec .hamEncode s = .next t ∧ Errored s t 2 0 0 s.n.toNat s.inLen.toNat) ∧
    (s.inLen.toNat ≤ s.params.maxBits → 3 ≤ s.n.toNat → s.inLen.toNat % dataLen s.n.toNat = 0 →
      s.params.maxBits < s.inLen.toNat / dataLen s.n.toNat * s.n.toNat →
      ∃ t, exec .hamEncode s = .next t ∧ Errored s t 6 0 0 s.n.toNat s.inLen.toNat)

/-- R119: HAM_ENCODE, then at most one flipped bit in each block, then HAM_DECODE: the data comes back, with exactly one
correction for each flipped block, in block order. -/
def Obligations.HammingRoundTripCorrectsOneFlipPerBlock : Prop :=
  ∀ (s : State) (flips : List (Nat × Nat)), s.params.legal = true → s.inLen.toNat ≤ s.params.maxBits → 3 ≤ s.n.toNat →
    s.inLen.toNat % dataLen s.n.toNat = 0 →
    s.inLen.toNat / dataLen s.n.toNat * s.n.toNat ≤ s.params.maxBits →
    (flips.map Prod.fst).Pairwise (· < ·) →
    (∀ f ∈ flips, f.1 < s.inLen.toNat / dataLen s.n.toNat ∧ 1 ≤ f.2 ∧ f.2 ≤ s.n.toNat) →
    ∃ t, exec .hamEncode s = .next t ∧
      ∀ u : State, u.params = s.params → u.n = s.n → u.inLen = t.outLen →
        (∀ j, j < u.inLen.toNat → inBit u j = (outBit t j ^^ decide ((j / s.n.toNat, j % s.n.toNat + 1) ∈ flips))) →
        ∃ v, exec .hamDecode u = .next v ∧ Succeeded u v (inputBits s s.inLen.toNat) flips 0 0 false

/-! ### crc32_verifier -/

/-- 42_crc32_verifier.md R131: POLY, its 33 bits, and its polynomial G(x). -/
def Obligations.GeneratorIsTheStated : Prop :=
  poly = [true, false, false, false, false, false, true, false, false, true, true, false, false, false, false, false, true,
    false, false, false, true, true, true, false, true, true, false, true, true, false, true, true, true] ∧
  toPoly poly = Polynomial.X ^ 32 + Polynomial.X ^ 26 + Polynomial.X ^ 23 + Polynomial.X ^ 22 + Polynomial.X ^ 16 +
    Polynomial.X ^ 12 + Polynomial.X ^ 11 + Polynomial.X ^ 10 + Polynomial.X ^ 8 + Polynomial.X ^ 7 + Polynomial.X ^ 5 +
    Polynomial.X ^ 4 + Polynomial.X ^ 2 + Polynomial.X + 1

/-- R134: the divider computes the polynomial remainder, as a sequence and as the REM word, and an all-zero remainder means
divisibility. -/
def Obligations.DividerIsThePolynomialRemainder : Prop :=
  ∀ y : Bits,
    toPoly (mod2Divide y poly) = toPoly y %ₘ toPoly poly ∧
    (mod2Divide y poly).length = min y.length 32 ∧
    (y.length ≤ 32 → mod2Divide y poly = y) ∧
    (∀ i, (remWord (mod2Divide y poly)).getLsbD i = true ↔ (toPoly y %ₘ toPoly poly).coeff i = 1) ∧
    (checkRemainder (mod2Divide y poly) = true ↔ toPoly poly ∣ toPoly y)

/-- R137: CRC_VERIFY completes without error on every frame of 33 to MAX_BITS bits. -/
def Obligations.CrcVerifyCompletes : Prop :=
  ∀ s : State, s.params.legal = true → 33 ≤ s.inLen.toNat → s.inLen.toNat ≤ s.params.maxBits →
    let x := inputBits s s.inLen.toNat
    let r := mod2Divide x poly
    ∃ t, exec .crcVerify s = .next t ∧
      Succeeded s t (if checkRemainder r then x.take (s.inLen.toNat - 32) else []) [] (remWord r) 32 (checkRemainder r)

/-- R138: CRC_APPEND completes without error on every message that leaves room for the check bits. -/
def Obligations.CrcAppendCompletes : Prop :=
  ∀ s : State, s.params.legal = true → s.inLen.toNat + 32 ≤ s.params.maxBits →
    let x := inputBits s s.inLen.toNat
    let r := mod2Divide (x ++ List.replicate 32 false) poly
    ∃ t, exec .crcAppend s = .next t ∧ r.length = 32 ∧ Succeeded s t (x ++ r) [] (remWord r) 32 false

/-- R139: CRC_REMAINDER completes without error on every input that fits. -/
def Obligations.CrcRemainderCompletes : Prop :=
  ∀ s : State, s.params.legal = true → s.inLen.toNat ≤ s.params.maxBits →
    let r := mod2Divide (inputBits s s.inLen.toNat) poly
    ∃ t, exec .crcRemainder s = .next t ∧
      Succeeded s t [] [] (remWord r) (min s.inLen.toNat 32) (checkRemainder r)

/-- R137 to R139, 60_exceptions.md R158, R160, R162: the errors of the CRC commands in their order; N is not recorded. -/
def Obligations.CrcErrors : Prop :=
  ∀ s : State, s.params.legal = true →
    (s.params.maxBits < s.inLen.toNat →
      (∃ t, exec .crcVerify s = .next t ∧ Errored s t 6 0 0 0 s.inLen.toNat) ∧
      (∃ t, exec .crcRemainder s = .next t ∧ Errored s t 6 0 0 0 s.inLen.toNat)) ∧
    (s.inLen.toNat < 33 → ∃ t, exec .crcVerify s = .next t ∧ Errored s t 4 0 0 0 s.inLen.toNat) ∧
    (s.params.maxBits < s.inLen.toNat + 32 →
      ∃ t, exec .crcAppend s = .next t ∧ Errored s t 6 0 0 0 s.inLen.toNat)

/-- 60_exceptions.md R163: a CRC mismatch is a normal result: no error, VALID = 0, no message, REM the nonzero remainder. -/
def Obligations.CrcMismatchIsNoError : Prop :=
  ∀ s : State, s.params.legal = true → 33 ≤ s.inLen.toNat → s.inLen.toNat ≤ s.params.maxBits →
    checkRemainder (mod2Divide (inputBits s s.inLen.toNat) poly) = false →
    ∃ t, exec .crcVerify s = .next t ∧ t.errCode = 0 ∧ t.err = false ∧ t.valid = false ∧ t.outLen = 0 ∧
      t.rem = remWord (mod2Divide (inputBits s s.inLen.toNat) poly) ∧ t.rem ≠ 0

/-- 42_crc32_verifier.md R140: the CRC round trip for messages of 1 to MAX_BITS − 32 bits, SHORT_FRAME for the empty one; and any
one flipped bit j of a valid frame of L bits gives VALID = 0 and REM = x^(L−1−j) mod G, which is 2^k for a flip in the last 32
bits. -/
def Obligations.CrcRoundTripAndSingleBitDetection : Prop :=
  (∀ s : State, s.params.legal = true → s.inLen.toNat + 32 ≤ s.params.maxBits →
    ∃ t, exec .crcAppend s = .next t ∧
      ∀ u : State, u.params = s.params → u.inLen = t.outLen →
        (∀ j, j < u.inLen.toNat → inBit u j = outBit t j) →
        ∃ v, exec .crcVerify u = .next v ∧
          (1 ≤ s.inLen.toNat → Succeeded u v (inputBits s s.inLen.toNat) [] 0 32 true) ∧
          (s.inLen.toNat = 0 → Errored u v 4 0 0 0 32)) ∧
  (∀ (s t u : State) (j : Nat), s.params.legal = true → exec .crcVerify s = .next t → t.valid = true →
    u.params = s.params → u.inLen = s.inLen → j < s.inLen.toNat →
    (∀ k, k < s.inLen.toNat → inBit u k = (inBit s k ^^ decide (k = j))) →
    ∃ v, exec .crcVerify u = .next v ∧ v.valid = false ∧ v.errCode = 0 ∧
      (∀ i, v.rem.getLsbD i = true ↔
        ((Polynomial.X ^ (s.inLen.toNat - 1 - j) : Polynomial (ZMod 2)) %ₘ toPoly poly).coeff i = 1) ∧
      (s.inLen.toNat - 1 - j < 32 → v.rem = BitVec.ofNat 32 (2 ^ (s.inLen.toNat - 1 - j))))

/-- R141: zero bits in front change no remainder; a valid frame with a zero in front is valid, its message with a zero in front;
every all-zero frame of 33 bits or more is valid. -/
def Obligations.LeadingZerosAreInvisible : Prop :=
  (∀ (k : Nat) (y : Bits),
    remWord (mod2Divide (List.replicate k false ++ y) poly) = remWord (mod2Divide y poly) ∧
    checkRemainder (mod2Divide (List.replicate k false ++ y) poly) = checkRemainder (mod2Divide y poly)) ∧
  (∀ s t u : State, s.params.legal = true → exec .crcVerify s = .next t → t.valid = true → u.params = s.params →
    s.inLen.toNat + 1 ≤ s.params.maxBits → u.inLen.toNat = s.inLen.toNat + 1 → inBit u 0 = false →
    (∀ j, j < s.inLen.toNat → inBit u (j + 1) = inBit s j) →
    ∃ v, exec .crcVerify u = .next v ∧
      Succeeded u v (false :: (inputBits s s.inLen.toNat).take (s.inLen.toNat - 32)) [] 0 32 true) ∧
  (∀ s : State, s.params.legal = true → 33 ≤ s.inLen.toNat → s.inLen.toNat ≤ s.params.maxBits →
    (∀ j, j < s.inLen.toNat → inBit s j = false) →
    ∃ t, exec .crcVerify s = .next t ∧
      Succeeded s t (List.replicate (s.inLen.toNat - 32) false) [] 0 32 true)

end
end

