-- ==== Sys2Proof/Laws/State.lean ====
section
/-! SUPPORT. What each named update of the state does to each field: one lemma per field, true by rfl. -/

namespace Sys2Proof.Machine

variable (s : State) (v w : Word) (o : CmdOutput) (e : CmdError)

/-! ### Acceptance (40_host_access.md R92) -/

@[simp] theorem acceptCommand_ctrlIe : (acceptCommand w s).ctrlIe = s.ctrlIe := rfl
@[simp] theorem acceptCommand_busy : (acceptCommand w s).busy = true := rfl
@[simp] theorem acceptCommand_done : (acceptCommand w s).done = false := rfl
@[simp] theorem acceptCommand_err : (acceptCommand w s).err = false := rfl
@[simp] theorem acceptCommand_valid : (acceptCommand w s).valid = false := rfl
@[simp] theorem acceptCommand_corrected : (acceptCommand w s).corrected = false := rfl
@[simp] theorem acceptCommand_busyViol : (acceptCommand w s).busyViol = s.busyViol := rfl
@[simp] theorem acceptCommand_pending : (acceptCommand w s).pending = some w := rfl
@[simp] theorem acceptCommand_n : (acceptCommand w s).n = s.n := rfl
@[simp] theorem acceptCommand_inLen : (acceptCommand w s).inLen = s.inLen := rfl
@[simp] theorem acceptCommand_outLen : (acceptCommand w s).outLen = s.outLen := rfl
@[simp] theorem acceptCommand_corrCount : (acceptCommand w s).corrCount = s.corrCount := rfl
@[simp] theorem acceptCommand_rem : (acceptCommand w s).rem = s.rem := rfl
@[simp] theorem acceptCommand_remLen : (acceptCommand w s).remLen = s.remLen := rfl
@[simp] theorem acceptCommand_errCode : (acceptCommand w s).errCode = s.errCode := rfl
@[simp] theorem acceptCommand_errBlock : (acceptCommand w s).errBlock = s.errBlock := rfl
@[simp] theorem acceptCommand_errSyndrome : (acceptCommand w s).errSyndrome = s.errSyndrome := rfl
@[simp] theorem acceptCommand_errN : (acceptCommand w s).errN = s.errN := rfl
@[simp] theorem acceptCommand_errLen : (acceptCommand w s).errLen = s.errLen := rfl
@[simp] theorem acceptCommand_mem : (acceptCommand w s).mem = s.mem := rfl
@[simp] theorem acceptCommand_params : (acceptCommand w s).params = s.params := rfl
@[simp] theorem acceptCommand_host : (acceptCommand w s).host = s.host := rfl
@[simp] theorem acceptCommand_turns : (acceptCommand w s).turns = s.turns := rfl
@[simp] theorem acceptCommand_response : (acceptCommand w s).response = s.response := rfl
@[simp] theorem acceptCommand_draws : (acceptCommand w s).draws = s.draws := rfl

/-! ### A command word placed for the next step -/

@[simp] theorem placeCommand_ctrlIe : (placeCommand w s).ctrlIe = s.ctrlIe := rfl
@[simp] theorem placeCommand_busy : (placeCommand w s).busy = true := rfl
@[simp] theorem placeCommand_done : (placeCommand w s).done = false := rfl
@[simp] theorem placeCommand_err : (placeCommand w s).err = false := rfl
@[simp] theorem placeCommand_valid : (placeCommand w s).valid = false := rfl
@[simp] theorem placeCommand_corrected : (placeCommand w s).corrected = false := rfl
@[simp] theorem placeCommand_busyViol : (placeCommand w s).busyViol = s.busyViol := rfl
@[simp] theorem placeCommand_pending : (placeCommand w s).pending = some w := rfl
@[simp] theorem placeCommand_n : (placeCommand w s).n = s.n := rfl
@[simp] theorem placeCommand_inLen : (placeCommand w s).inLen = s.inLen := rfl
@[simp] theorem placeCommand_outLen : (placeCommand w s).outLen = s.outLen := rfl
@[simp] theorem placeCommand_corrCount : (placeCommand w s).corrCount = s.corrCount := rfl
@[simp] theorem placeCommand_rem : (placeCommand w s).rem = s.rem := rfl
@[simp] theorem placeCommand_remLen : (placeCommand w s).remLen = s.remLen := rfl
@[simp] theorem placeCommand_errCode : (placeCommand w s).errCode = s.errCode := rfl
@[simp] theorem placeCommand_errBlock : (placeCommand w s).errBlock = s.errBlock := rfl
@[simp] theorem placeCommand_errSyndrome : (placeCommand w s).errSyndrome = s.errSyndrome := rfl
@[simp] theorem placeCommand_errN : (placeCommand w s).errN = s.errN := rfl
@[simp] theorem placeCommand_errLen : (placeCommand w s).errLen = s.errLen := rfl
@[simp] theorem placeCommand_mem : (placeCommand w s).mem = s.mem := rfl
@[simp] theorem placeCommand_params : (placeCommand w s).params = s.params := rfl
@[simp] theorem placeCommand_host : (placeCommand w s).host = s.host := rfl
@[simp] theorem placeCommand_turns : (placeCommand w s).turns = .engine :: s.turns := rfl
@[simp] theorem placeCommand_response : (placeCommand w s).response = s.response := rfl
@[simp] theorem placeCommand_draws : (placeCommand w s).draws = s.draws := rfl

/-! ### A STATUS write (R91) -/

@[simp] theorem clearFlags_ctrlIe : (clearFlags v s).ctrlIe = s.ctrlIe := rfl
@[simp] theorem clearFlags_busy : (clearFlags v s).busy = s.busy := rfl
@[simp] theorem clearFlags_done : (clearFlags v s).done = (s.done && !v.getLsbD 1) := rfl
@[simp] theorem clearFlags_err : (clearFlags v s).err = s.err := rfl
@[simp] theorem clearFlags_valid : (clearFlags v s).valid = s.valid := rfl
@[simp] theorem clearFlags_corrected : (clearFlags v s).corrected = s.corrected := rfl
@[simp] theorem clearFlags_busyViol : (clearFlags v s).busyViol = (s.busyViol && !v.getLsbD 5) := rfl
@[simp] theorem clearFlags_pending : (clearFlags v s).pending = s.pending := rfl
@[simp] theorem clearFlags_n : (clearFlags v s).n = s.n := rfl
@[simp] theorem clearFlags_inLen : (clearFlags v s).inLen = s.inLen := rfl
@[simp] theorem clearFlags_outLen : (clearFlags v s).outLen = s.outLen := rfl
@[simp] theorem clearFlags_corrCount : (clearFlags v s).corrCount = s.corrCount := rfl
@[simp] theorem clearFlags_rem : (clearFlags v s).rem = s.rem := rfl
@[simp] theorem clearFlags_remLen : (clearFlags v s).remLen = s.remLen := rfl
@[simp] theorem clearFlags_errCode : (clearFlags v s).errCode = s.errCode := rfl
@[simp] theorem clearFlags_errBlock : (clearFlags v s).errBlock = s.errBlock := rfl
@[simp] theorem clearFlags_errSyndrome : (clearFlags v s).errSyndrome = s.errSyndrome := rfl
@[simp] theorem clearFlags_errN : (clearFlags v s).errN = s.errN := rfl
@[simp] theorem clearFlags_errLen : (clearFlags v s).errLen = s.errLen := rfl
@[simp] theorem clearFlags_mem : (clearFlags v s).mem = s.mem := rfl
@[simp] theorem clearFlags_params : (clearFlags v s).params = s.params := rfl
@[simp] theorem clearFlags_host : (clearFlags v s).host = s.host := rfl
@[simp] theorem clearFlags_turns : (clearFlags v s).turns = s.turns := rfl
@[simp] theorem clearFlags_response : (clearFlags v s).response = s.response := rfl
@[simp] theorem clearFlags_draws : (clearFlags v s).draws = s.draws := rfl

/-! ### A guarded write while busy (R98) -/

@[simp] theorem setBusyViol_ctrlIe : (setBusyViol s).ctrlIe = s.ctrlIe := rfl
@[simp] theorem setBusyViol_busy : (setBusyViol s).busy = s.busy := rfl
@[simp] theorem setBusyViol_done : (setBusyViol s).done = s.done := rfl
@[simp] theorem setBusyViol_err : (setBusyViol s).err = s.err := rfl
@[simp] theorem setBusyViol_valid : (setBusyViol s).valid = s.valid := rfl
@[simp] theorem setBusyViol_corrected : (setBusyViol s).corrected = s.corrected := rfl
@[simp] theorem setBusyViol_busyViol : (setBusyViol s).busyViol = true := rfl
@[simp] theorem setBusyViol_pending : (setBusyViol s).pending = s.pending := rfl
@[simp] theorem setBusyViol_n : (setBusyViol s).n = s.n := rfl
@[simp] theorem setBusyViol_inLen : (setBusyViol s).inLen = s.inLen := rfl
@[simp] theorem setBusyViol_outLen : (setBusyViol s).outLen = s.outLen := rfl
@[simp] theorem setBusyViol_corrCount : (setBusyViol s).corrCount = s.corrCount := rfl
@[simp] theorem setBusyViol_rem : (setBusyViol s).rem = s.rem := rfl
@[simp] theorem setBusyViol_remLen : (setBusyViol s).remLen = s.remLen := rfl
@[simp] theorem setBusyViol_errCode : (setBusyViol s).errCode = s.errCode := rfl
@[simp] theorem setBusyViol_errBlock : (setBusyViol s).errBlock = s.errBlock := rfl
@[simp] theorem setBusyViol_errSyndrome : (setBusyViol s).errSyndrome = s.errSyndrome := rfl
@[simp] theorem setBusyViol_errN : (setBusyViol s).errN = s.errN := rfl
@[simp] theorem setBusyViol_errLen : (setBusyViol s).errLen = s.errLen := rfl
@[simp] theorem setBusyViol_mem : (setBusyViol s).mem = s.mem := rfl
@[simp] theorem setBusyViol_params : (setBusyViol s).params = s.params := rfl
@[simp] theorem setBusyViol_host : (setBusyViol s).host = s.host := rfl
@[simp] theorem setBusyViol_turns : (setBusyViol s).turns = s.turns := rfl
@[simp] theorem setBusyViol_response : (setBusyViol s).response = s.response := rfl
@[simp] theorem setBusyViol_draws : (setBusyViol s).draws = s.draws := rfl

/-! ### A completion without error (R96) -/

@[simp] theorem complete_ok_ctrlIe : (complete (.ok o) s).ctrlIe = s.ctrlIe := rfl
@[simp] theorem complete_ok_busy : (complete (.ok o) s).busy = false := rfl
@[simp] theorem complete_ok_done : (complete (.ok o) s).done = true := rfl
@[simp] theorem complete_ok_err : (complete (.ok o) s).err = false := rfl
@[simp] theorem complete_ok_valid : (complete (.ok o) s).valid = o.valid := rfl
@[simp] theorem complete_ok_corrected : (complete (.ok o) s).corrected = decide (0 < o.corr.length) := rfl
@[simp] theorem complete_ok_busyViol : (complete (.ok o) s).busyViol = s.busyViol := rfl
@[simp] theorem complete_ok_pending : (complete (.ok o) s).pending = none := rfl
@[simp] theorem complete_ok_n : (complete (.ok o) s).n = s.n := rfl
@[simp] theorem complete_ok_inLen : (complete (.ok o) s).inLen = s.inLen := rfl
@[simp] theorem complete_ok_outLen : (complete (.ok o) s).outLen = BitVec.ofNat 32 o.out.length := rfl
@[simp] theorem complete_ok_corrCount : (complete (.ok o) s).corrCount = BitVec.ofNat 32 o.corr.length := rfl
@[simp] theorem complete_ok_rem : (complete (.ok o) s).rem = o.rem := rfl
@[simp] theorem complete_ok_remLen : (complete (.ok o) s).remLen = BitVec.ofNat 32 o.remLen := rfl
@[simp] theorem complete_ok_errCode : (complete (.ok o) s).errCode = 0 := rfl
@[simp] theorem complete_ok_errBlock : (complete (.ok o) s).errBlock = 0 := rfl
@[simp] theorem complete_ok_errSyndrome : (complete (.ok o) s).errSyndrome = 0 := rfl
@[simp] theorem complete_ok_errN : (complete (.ok o) s).errN = 0 := rfl
@[simp] theorem complete_ok_errLen : (complete (.ok o) s).errLen = 0 := rfl
@[simp] theorem complete_ok_mem : (complete (.ok o) s).mem = s.mem.putResults s.params o.out o.corr := rfl
@[simp] theorem complete_ok_params : (complete (.ok o) s).params = s.params := rfl
@[simp] theorem complete_ok_host : (complete (.ok o) s).host = s.host := rfl
@[simp] theorem complete_ok_turns : (complete (.ok o) s).turns = s.turns := rfl
@[simp] theorem complete_ok_response : (complete (.ok o) s).response = s.response := rfl
@[simp] theorem complete_ok_draws : (complete (.ok o) s).draws = s.draws := rfl

/-! ### A completion with an error (60_exceptions.md R159) -/

@[simp] theorem complete_error_ctrlIe : (complete (.error e) s).ctrlIe = s.ctrlIe := rfl
@[simp] theorem complete_error_busy : (complete (.error e) s).busy = false := rfl
@[simp] theorem complete_error_done : (complete (.error e) s).done = true := rfl
@[simp] theorem complete_error_err : (complete (.error e) s).err = true := rfl
@[simp] theorem complete_error_valid : (complete (.error e) s).valid = false := rfl
@[simp] theorem complete_error_corrected : (complete (.error e) s).corrected = false := rfl
@[simp] theorem complete_error_busyViol : (complete (.error e) s).busyViol = s.busyViol := rfl
@[simp] theorem complete_error_pending : (complete (.error e) s).pending = none := rfl
@[simp] theorem complete_error_n : (complete (.error e) s).n = s.n := rfl
@[simp] theorem complete_error_inLen : (complete (.error e) s).inLen = s.inLen := rfl
@[simp] theorem complete_error_outLen : (complete (.error e) s).outLen = 0 := rfl
@[simp] theorem complete_error_corrCount : (complete (.error e) s).corrCount = 0 := rfl
@[simp] theorem complete_error_rem : (complete (.error e) s).rem = 0 := rfl
@[simp] theorem complete_error_remLen : (complete (.error e) s).remLen = 0 := rfl
@[simp] theorem complete_error_errCode : (complete (.error e) s).errCode = errCodeOf e.kind := rfl
@[simp] theorem complete_error_errBlock : (complete (.error e) s).errBlock = BitVec.ofNat 32 e.block := rfl
@[simp] theorem complete_error_errSyndrome : (complete (.error e) s).errSyndrome = BitVec.ofNat 32 e.syndrome := rfl
@[simp] theorem complete_error_errN : (complete (.error e) s).errN = BitVec.ofNat 32 e.n := rfl
@[simp] theorem complete_error_errLen : (complete (.error e) s).errLen = BitVec.ofNat 32 e.len := rfl
@[simp] theorem complete_error_mem : (complete (.error e) s).mem = s.mem.putResults s.params [] [] := rfl
@[simp] theorem complete_error_params : (complete (.error e) s).params = s.params := rfl
@[simp] theorem complete_error_host : (complete (.error e) s).host = s.host := rfl
@[simp] theorem complete_error_turns : (complete (.error e) s).turns = s.turns := rfl
@[simp] theorem complete_error_response : (complete (.error e) s).response = s.response := rfl
@[simp] theorem complete_error_draws : (complete (.error e) s).draws = s.draws := rfl

/-! ### The power-on reset (70_reset_and_hazards.md R177) -/

@[simp] theorem powerOnReset_ctrlIe : (powerOnReset s).ctrlIe = false := rfl
@[simp] theorem powerOnReset_busy : (powerOnReset s).busy = false := rfl
@[simp] theorem powerOnReset_done : (powerOnReset s).done = false := rfl
@[simp] theorem powerOnReset_err : (powerOnReset s).err = false := rfl
@[simp] theorem powerOnReset_valid : (powerOnReset s).valid = false := rfl
@[simp] theorem powerOnReset_corrected : (powerOnReset s).corrected = false := rfl
@[simp] theorem powerOnReset_busyViol : (powerOnReset s).busyViol = false := rfl
@[simp] theorem powerOnReset_pending : (powerOnReset s).pending = none := rfl
@[simp] theorem powerOnReset_n : (powerOnReset s).n = 0 := rfl
@[simp] theorem powerOnReset_inLen : (powerOnReset s).inLen = 0 := rfl
@[simp] theorem powerOnReset_outLen : (powerOnReset s).outLen = 0 := rfl
@[simp] theorem powerOnReset_corrCount : (powerOnReset s).corrCount = 0 := rfl
@[simp] theorem powerOnReset_rem : (powerOnReset s).rem = 0 := rfl
@[simp] theorem powerOnReset_remLen : (powerOnReset s).remLen = 0 := rfl
@[simp] theorem powerOnReset_errCode : (powerOnReset s).errCode = 0 := rfl
@[simp] theorem powerOnReset_errBlock : (powerOnReset s).errBlock = 0 := rfl
@[simp] theorem powerOnReset_errSyndrome : (powerOnReset s).errSyndrome = 0 := rfl
@[simp] theorem powerOnReset_errN : (powerOnReset s).errN = 0 := rfl
@[simp] theorem powerOnReset_errLen : (powerOnReset s).errLen = 0 := rfl
@[simp] theorem powerOnReset_mem : (powerOnReset s).mem = { inEpoch := s.draws, outEpoch := some s.draws, cells := [] } := rfl
@[simp] theorem powerOnReset_params : (powerOnReset s).params = s.params := rfl
@[simp] theorem powerOnReset_host : (powerOnReset s).host = s.host := rfl
@[simp] theorem powerOnReset_turns : (powerOnReset s).turns = s.turns := rfl
@[simp] theorem powerOnReset_response : (powerOnReset s).response = s.response := rfl
@[simp] theorem powerOnReset_draws : (powerOnReset s).draws = s.draws + 1 := rfl

/-! ### The soft reset (R178) -/

@[simp] theorem softReset_ctrlIe : (softReset s).ctrlIe = false := rfl
@[simp] theorem softReset_busy : (softReset s).busy = false := rfl
@[simp] theorem softReset_done : (softReset s).done = false := rfl
@[simp] theorem softReset_err : (softReset s).err = false := rfl
@[simp] theorem softReset_valid : (softReset s).valid = false := rfl
@[simp] theorem softReset_corrected : (softReset s).corrected = false := rfl
@[simp] theorem softReset_busyViol : (softReset s).busyViol = false := rfl
@[simp] theorem softReset_pending : (softReset s).pending = none := rfl
@[simp] theorem softReset_n : (softReset s).n = 0 := rfl
@[simp] theorem softReset_inLen : (softReset s).inLen = 0 := rfl
@[simp] theorem softReset_outLen : (softReset s).outLen = 0 := rfl
@[simp] theorem softReset_corrCount : (softReset s).corrCount = 0 := rfl
@[simp] theorem softReset_rem : (softReset s).rem = 0 := rfl
@[simp] theorem softReset_remLen : (softReset s).remLen = 0 := rfl
@[simp] theorem softReset_errCode : (softReset s).errCode = 0 := rfl
@[simp] theorem softReset_errBlock : (softReset s).errBlock = 0 := rfl
@[simp] theorem softReset_errSyndrome : (softReset s).errSyndrome = 0 := rfl
@[simp] theorem softReset_errN : (softReset s).errN = 0 := rfl
@[simp] theorem softReset_errLen : (softReset s).errLen = 0 := rfl
@[simp] theorem softReset_mem : (softReset s).mem = s.mem.dropResults s.draws := rfl
@[simp] theorem softReset_params : (softReset s).params = s.params := rfl
@[simp] theorem softReset_host : (softReset s).host = s.host := rfl
@[simp] theorem softReset_turns : (softReset s).turns = s.turns := rfl
@[simp] theorem softReset_response : (softReset s).response = s.response := rfl
@[simp] theorem softReset_draws : (softReset s).draws = s.draws + 1 := rfl

end Sys2Proof.Machine
end

