-- ==== Sys2Proof/Laws/Memory.lean ====
section
/-! SUPPORT. The buffers' bytes: read after write, and that every memory operation keeps the canonical form. -/

namespace Sys2Proof.Machine

/-! ### Lists of cells -/

theorem risingFrom_mono {lo lo' : Nat} (hlo : lo' ≤ lo) : {cs : List Host.Cell} → risingFrom lo cs = true →
    risingFrom lo' cs = true
  | [], _ => rfl
  | c :: cs, h => by
    simp only [risingFrom, Bool.and_eq_true, decide_eq_true_eq] at h ⊢
    exact ⟨by omega, h.2⟩

theorem risingFrom_le {lo : Nat} : {cs : List Host.Cell} → risingFrom lo cs = true → ∀ c ∈ cs, lo ≤ c.1
  | [], _, _, hc => by simp at hc
  | d :: cs, h, c, hc => by
    simp only [risingFrom, Bool.and_eq_true, decide_eq_true_eq] at h
    rcases List.mem_cons.mp hc with rfl | hc
    · exact h.1
    · have := risingFrom_le h.2 c hc; omega

theorem risingFrom_filter (q : Host.Cell → Bool) : {lo : Nat} → {cs : List Host.Cell} → risingFrom lo cs = true →
    risingFrom lo (cs.filter q) = true
  | _, [], _ => rfl
  | lo, c :: cs, h => by
    simp only [risingFrom, Bool.and_eq_true, decide_eq_true_eq] at h
    have ih := risingFrom_filter q h.2
    by_cases hq : q c = true
    · simp [hq, risingFrom, h.1, ih]
    · simpa [hq] using risingFrom_mono (by omega) ih

theorem risingFrom_append {lo mid : Nat} : {cs ds : List Host.Cell} → risingFrom lo cs = true →
    (∀ c ∈ cs, c.1 < mid) → lo ≤ mid → risingFrom mid ds = true → risingFrom lo (cs ++ ds) = true
  | [], _, _, _, hlo, hd => risingFrom_mono hlo hd
  | c :: cs, ds, hc, hm, hlo, hd => by
    simp only [risingFrom, Bool.and_eq_true, decide_eq_true_eq] at hc
    have hcm := hm c (by simp)
    simp only [List.cons_append, risingFrom, Bool.and_eq_true, decide_eq_true_eq]
    exact ⟨hc.1, risingFrom_append hc.2 (fun d hd' => hm d (by simp [hd'])) (by omega) hd⟩

theorem putCell_rising {a : Nat} {b : Byte} : {lo : Nat} → {cs : List Host.Cell} → risingFrom lo cs = true → lo ≤ a →
    risingFrom lo (putCell a b cs) = true
  | lo, [], _, hlo => by simp [putCell, risingFrom, hlo]
  | lo, c :: cs, h, hlo => by
    simp only [risingFrom, Bool.and_eq_true, decide_eq_true_eq] at h
    simp only [putCell]
    split
    · rename_i hac
      simp only [risingFrom, Bool.and_eq_true, decide_eq_true_eq]
      exact ⟨hlo, by omega, h.2⟩
    · split
      · rename_i h1 h2; subst h2; simp [risingFrom, hlo, h.2]
      · rename_i h1 h2
        simp only [risingFrom, Bool.and_eq_true, decide_eq_true_eq]
        exact ⟨h.1, putCell_rising h.2 (by omega)⟩

theorem mem_putCell {a : Nat} {b : Byte} {c : Host.Cell} : {cs : List Host.Cell} → c ∈ putCell a b cs →
    c = (a, b) ∨ c ∈ cs
  | [], h => by simpa [putCell] using h
  | d :: cs, h => by
    simp only [putCell] at h
    split at h
    · simpa using h
    · split at h
      · rcases List.mem_cons.mp h with h | h
        · exact .inl h
        · exact .inr (by simp [h])
      · rcases List.mem_cons.mp h with h | h
        · exact .inr (by simp [h])
        · rcases mem_putCell h with h | h
          · exact .inl h
          · exact .inr (by simp [h])

theorem findCell_eq_none {a : Nat} : {cs : List Host.Cell} → (∀ c ∈ cs, c.1 ≠ a) → findCell cs a = none
  | [], _ => rfl
  | c :: cs, h => by
    simp only [findCell, if_neg (h c (by simp))]
    exact findCell_eq_none fun d hd => h d (by simp [hd])

theorem findCell_putCell {a : Nat} {b : Byte} (x : Nat) : {lo : Nat} → {cs : List Host.Cell} →
    risingFrom lo cs = true → findCell (putCell a b cs) x = if x = a then some b else findCell cs x
  | _, [], _ => by simp [putCell, findCell, eq_comm]
  | lo, c :: cs, h => by
    simp only [risingFrom, Bool.and_eq_true, decide_eq_true_eq] at h
    simp only [putCell]
    split
    · rename_i hac
      by_cases hx : x = a
      · subst hx; simp [findCell]
      · simp [findCell, hx, Ne.symm hx]
    · split
      · rename_i h1 h2
        by_cases hx : x = a
        · subst hx; simp [findCell]
        · simp [findCell, hx, Ne.symm hx, h2]
      · rename_i h1 h2
        simp only [findCell]
        by_cases hc : c.1 = x
        · have : x ≠ a := by omega
          simp [hc, this]
        · simp [hc, findCell_putCell x h.2]

theorem findCell_filter {q : Nat → Bool} (x : Nat) : (cs : List Host.Cell) →
    findCell (cs.filter fun c => q c.1) x = if q x then findCell cs x else none
  | [] => by simp [findCell]
  | c :: cs => by
    by_cases hc : q c.1 = true
    · simp only [List.filter_cons, hc, if_true, findCell]
      by_cases hx : c.1 = x
      · subst hx; simp [hc]
      · simp [hx, findCell_filter x cs]
    · simp only [List.filter_cons, hc, findCell]
      by_cases hx : c.1 = x
      · subst hx; simp [hc, findCell_filter c.1 cs]
      · simp [hx, findCell_filter x cs]

theorem findCell_append (x : Nat) : (cs ds : List Host.Cell) →
    findCell (cs ++ ds) x = (findCell cs x).or (findCell ds x)
  | [], _ => by simp [findCell]
  | c :: cs, ds => by
    simp only [List.cons_append, findCell]
    split
    · simp
    · exact findCell_append x cs ds

/-! ### One byte -/

theorem unlisted_of_known {m : Memory} {a : Nat} {b : Byte} (h : m.unlisted? a = some b) : m.unlisted a = b := by
  unfold Memory.unlisted? at h
  unfold Memory.unlisted
  split at h
  · cases h
  · rename_i ha
    cases ho : m.outEpoch with
    | none => simpa [ho, ha] using h
    | some d => simp [ho] at h

theorem Memory.wf_rising {m : Memory} (h : m.wf = true) : risingFrom 0 m.cells = true := by
  simp only [Memory.wf, Bool.and_eq_true] at h; exact h.1

theorem Memory.wf_listed {m : Memory} (h : m.wf = true) : ∀ c ∈ m.cells, m.unlisted? c.1 ≠ some c.2 := by
  simp only [Memory.wf, Bool.and_eq_true, List.all_eq_true, decide_eq_true_eq] at h; exact h.2

theorem Memory.wf_intro {m : Memory} (h₁ : risingFrom 0 m.cells = true)
    (h₂ : ∀ c ∈ m.cells, m.unlisted? c.1 ≠ some c.2) : m.wf = true := by
  simp only [Memory.wf, Bool.and_eq_true, List.all_eq_true, decide_eq_true_eq]; exact ⟨h₁, h₂⟩

@[simp] theorem Memory.putByte_inEpoch (m : Memory) (a : Nat) (b : Byte) : (m.putByte a b).inEpoch = m.inEpoch := rfl
@[simp] theorem Memory.putByte_outEpoch (m : Memory) (a : Nat) (b : Byte) : (m.putByte a b).outEpoch = m.outEpoch := rfl
@[simp] theorem Memory.putByte_unlisted? (m : Memory) (a : Nat) (b : Byte) (x : Nat) :
    (m.putByte a b).unlisted? x = m.unlisted? x := rfl
@[simp] theorem Memory.putByte_unlisted (m : Memory) (a : Nat) (b : Byte) (x : Nat) :
    (m.putByte a b).unlisted x = m.unlisted x := rfl

theorem Memory.mem_putByte {m : Memory} {a : Nat} {b : Byte} {c : Host.Cell} (h : c ∈ (m.putByte a b).cells) :
    c = (a, b) ∨ c ∈ m.cells := by
  simp only [Memory.putByte] at h
  split at h
  · exact .inr (List.mem_of_mem_filter h)
  · exact mem_putCell h

/-- A byte write keeps the canonical form. -/
theorem Memory.putByte_wf {m : Memory} (h : m.wf = true) (a : Nat) (b : Byte) : (m.putByte a b).wf = true := by
  have hr := Memory.wf_rising h
  have hl := Memory.wf_listed h
  by_cases hu : m.unlisted? a = some b
  · refine Memory.wf_intro ?_ fun c hc => ?_
    · simpa [Memory.putByte, hu] using risingFrom_filter _ hr
    · simp only [Memory.putByte, hu, if_true] at hc
      exact hl c (List.mem_of_mem_filter hc)
  · refine Memory.wf_intro ?_ fun c hc => ?_
    · simpa [Memory.putByte, hu] using putCell_rising hr (Nat.zero_le a)
    · rcases Memory.mem_putByte hc with rfl | hc
      · exact hu
      · exact hl c hc

/-- Read after write: the byte written, and every other byte as before. -/
theorem Memory.byteAt_putByte {m : Memory} (h : m.wf = true) (a : Nat) (b : Byte) (x : Nat) :
    (m.putByte a b).byteAt x = if x = a then b else m.byteAt x := by
  have hr := Memory.wf_rising h
  by_cases hu : m.unlisted? a = some b
  · have hf : (m.putByte a b).cells = m.cells.filter (fun c => decide (c.1 ≠ a)) := by simp [Memory.putByte, hu]
    have := findCell_filter (q := fun y => decide (y ≠ a)) x m.cells
    simp only [Memory.byteAt, hf, this, Memory.putByte_unlisted]
    by_cases hx : x = a
    · subst hx; simp [unlisted_of_known hu]
    · simp [hx]
  · have hf : (m.putByte a b).cells = putCell a b m.cells := by simp [Memory.putByte, hu]
    simp only [Memory.byteAt, hf, findCell_putCell x hr, Memory.putByte_unlisted]
    by_cases hx : x = a <;> simp [hx]

/-! ### One word -/

@[simp] theorem Memory.putWord_inEpoch (m : Memory) (a : Nat) (v : Word) : (m.putWord a v).inEpoch = m.inEpoch := rfl
@[simp] theorem Memory.putWord_outEpoch (m : Memory) (a : Nat) (v : Word) : (m.putWord a v).outEpoch = m.outEpoch := rfl

/-- A word write keeps the canonical form. -/
theorem Memory.putWord_wf {m : Memory} (h : m.wf = true) (a : Nat) (v : Word) : (m.putWord a v).wf = true :=
  Memory.putByte_wf (Memory.putByte_wf (Memory.putByte_wf (Memory.putByte_wf h _ _) _ _) _ _) _ _

theorem Memory.mem_putWord {m : Memory} {a : Nat} {v : Word} {c : Host.Cell} (h : c ∈ (m.putWord a v).cells) :
    (a ≤ c.1 ∧ c.1 < a + 4) ∨ c ∈ m.cells := by
  rcases Memory.mem_putByte h with rfl | h
  · exact .inl (by simp)
  rcases Memory.mem_putByte h with rfl | h
  · exact .inl (by simp)
  rcases Memory.mem_putByte h with rfl | h
  · exact .inl (by simp)
  rcases Memory.mem_putByte h with rfl | h
  · exact .inl (by simp)
  · exact .inr h

/-- The bytes after a word write: the four lanes at the word, every other byte as before. -/
theorem Memory.byteAt_putWord {m : Memory} (h : m.wf = true) (a : Nat) (v : Word) (x : Nat) :
    (m.putWord a v).byteAt x = if a ≤ x ∧ x < a + 4 then lane v (x - a) else m.byteAt x := by
  have h0 := Memory.putByte_wf h a (lane v 0)
  have h1 := Memory.putByte_wf h0 (a + 1) (lane v 1)
  have h2 := Memory.putByte_wf h1 (a + 2) (lane v 2)
  simp only [Memory.putWord, Memory.byteAt_putByte h2, Memory.byteAt_putByte h1, Memory.byteAt_putByte h0,
    Memory.byteAt_putByte h]
  by_cases hx : a ≤ x ∧ x < a + 4
  · obtain ⟨d, rfl⟩ := Nat.exists_eq_add_of_le hx.1
    have : d = 0 ∨ d = 1 ∨ d = 2 ∨ d = 3 := by omega
    rcases this with rfl | rfl | rfl | rfl <;> simp
  · have h3 : x ≠ a + 3 := by omega
    have h2 : x ≠ a + 2 := by omega
    have h1 : x ≠ a + 1 := by omega
    have h0 : x ≠ a := by omega
    simp [h0, h1, h2, h3, hx]

/-- The word made of the four lanes of a word is that word (20_memory.md R53). -/
theorem ofLanes_lane (v : Word) : ofLanes (lane v 3) (lane v 2) (lane v 1) (lane v 0) = v := by
  apply BitVec.eq_of_getLsbD_eq
  intro i hi
  simp only [ofLanes, lane, BitVec.getLsbD_append, BitVec.getLsbD_extractLsb']
  by_cases h0 : i < 8
  · simp [h0]
  · by_cases h1 : i < 16
    · have : i - 8 < 8 := by omega
      have e : 8 + (i - 8) = i := by omega
      simp [h0, this, e]
    · by_cases h2 : i < 24
      · have a1 : ¬ (i - 8 < 8) := by omega
        have a2 : i - 8 - 8 < 8 := by omega
        have e : 16 + (i - 8 - 8) = i := by omega
        simp [h0, a1, a2, e]
      · have a1 : ¬ (i - 8 < 8) := by omega
        have a2 : ¬ (i - 8 - 8 < 8) := by omega
        have a3 : i - 8 - 8 - 8 < 8 := by omega
        have e : 24 + (i - 8 - 8 - 8) = i := by omega
        simp [h0, a1, a2, a3, e]

/-! ### The cells of consecutive words -/

/-- A byte of consecutive words: its word's lane, or 0 outside them. -/
theorem findCell_wordCells (x : Nat) : (a : Nat) → (vs : List Word) →
    (findCell (wordCells a vs) x).getD 0#8 =
      if a ≤ x ∧ x < a + 4 * vs.length then lane (vs.getD ((x - a) / 4) 0#32) ((x - a) % 4) else 0#8
  | a, [] => by
    have : ¬ (a ≤ x ∧ x < a + 4 * ([] : List Word).length) := by simp
    simp [wordCells, findCell]
  | a, v :: vs => by
    have ih := findCell_wordCells x (a + 4) vs
    simp only [wordCells, findCell_append]
    have key : findCell ([(a, lane v 0), (a + 1, lane v 1), (a + 2, lane v 2), (a + 3, lane v 3)].filter
        (fun c : Host.Cell => decide (c.2 ≠ 0#8))) x =
        if a ≤ x ∧ x < a + 4 ∧ lane v (x - a) ≠ 0#8 then some (lane v (x - a)) else none := by
      by_cases hx : a ≤ x ∧ x < a + 4
      · obtain ⟨d, rfl⟩ := Nat.exists_eq_add_of_le hx.1
        have hd : d = 0 ∨ d = 1 ∨ d = 2 ∨ d = 3 := by omega
        by_cases h0 : lane v 0 = 0#8 <;> by_cases h1 : lane v 1 = 0#8 <;> by_cases h2 : lane v 2 = 0#8 <;>
          by_cases h3 : lane v 3 = 0#8 <;> rcases hd with rfl | rfl | rfl | rfl <;>
          simp [findCell, h0, h1, h2, h3]
      · have : ¬ (a ≤ x ∧ x < a + 4 ∧ lane v (x - a) ≠ 0#8) := fun h => hx ⟨h.1, h.2.1⟩
        rw [if_neg this]
        apply findCell_eq_none
        intro c hc
        have := List.mem_of_mem_filter hc
        simp only [List.mem_cons, List.not_mem_nil, or_false] at this
        rcases this with rfl | rfl | rfl | rfl <;> simp <;> omega
    rw [key]
    have hlen : (v :: vs).length = vs.length + 1 := rfl
    by_cases hx : a ≤ x ∧ x < a + 4
    · have hout : ¬ (a + 4 ≤ x ∧ x < a + 4 + 4 * vs.length) := by omega
      rw [if_neg hout] at ih
      have hin : a ≤ x ∧ x < a + 4 * (v :: vs).length := by rw [hlen]; omega
      have hdiv : (x - a) / 4 = 0 := by omega
      have hmod : (x - a) % 4 = x - a := by omega
      rw [if_pos hin, hdiv, hmod]
      by_cases hz : lane v (x - a) = 0#8
      · simp [hx, hz, ih]
      · simp [hx, hz]
    · have : ¬ (a ≤ x ∧ x < a + 4 ∧ lane v (x - a) ≠ 0#8) := fun h => hx ⟨h.1, h.2.1⟩
      rw [if_neg this]
      simp only [Option.none_or, ih]
      by_cases hin : a + 4 ≤ x ∧ x < a + 4 + 4 * vs.length
      · have hin' : a ≤ x ∧ x < a + 4 * (v :: vs).length := by rw [hlen]; omega
        have hdiv : (x - a) / 4 = (x - (a + 4)) / 4 + 1 := by omega
        have hmod : (x - a) % 4 = (x - (a + 4)) % 4 := by omega
        rw [if_pos hin, if_pos hin', hdiv, hmod]
        simp
      · have hin' : ¬ (a ≤ x ∧ x < a + 4 * (v :: vs).length) := by rw [hlen]; omega
        rw [if_neg hin, if_neg hin']

theorem mem_wordCells {c : Host.Cell} : {a : Nat} → {vs : List Word} → c ∈ wordCells a vs →
    a ≤ c.1 ∧ c.1 < a + 4 * vs.length ∧ c.2 ≠ 0#8
  | a, [], h => by simp [wordCells] at h
  | a, v :: vs, h => by
    simp only [wordCells, List.mem_append, List.mem_filter, List.mem_cons, List.not_mem_nil, or_false,
      decide_eq_true_eq] at h
    simp only [List.length_cons]
    rcases h with ⟨h, hz⟩ | h
    · rcases h with rfl | rfl | rfl | rfl <;> refine ⟨?_, ?_, hz⟩ <;> simp <;> omega
    · have := mem_wordCells h
      exact ⟨by omega, by omega, this.2.2⟩

theorem wordCells_rising : (a : Nat) → (vs : List Word) → risingFrom a (wordCells a vs) = true
  | _, [] => rfl
  | a, v :: vs => by
    refine risingFrom_append (mid := a + 4) (risingFrom_filter _ ?_) ?_ (by omega) (wordCells_rising (a + 4) vs)
    · simp [risingFrom]
    · intro c hc
      have := List.mem_of_mem_filter hc
      simp only [List.mem_cons, List.not_mem_nil, or_false] at this
      rcases this with rfl | rfl | rfl | rfl <;> simp

@[simp] theorem packWords_length : (k : Nat) → (b : Bits) → (packWords k b).length = k
  | 0, _ => rfl
  | k + 1, b => by simp [packWords, packWords_length k]

/-! ### A completion's results (R56, R57) and the soft reset (R178) -/

@[simp] theorem Memory.putResults_inEpoch (p : Config.Params) (o : Bits) (c : List (Nat × Nat)) (m : Memory) :
    (m.putResults p o c).inEpoch = m.inEpoch := rfl
@[simp] theorem Memory.putResults_outEpoch (p : Config.Params) (o : Bits) (c : List (Nat × Nat)) (m : Memory) :
    (m.putResults p o c).outEpoch = none := rfl
@[simp] theorem Memory.dropResults_inEpoch (d : Nat) (m : Memory) : (m.dropResults d).inEpoch = m.inEpoch := rfl
@[simp] theorem Memory.dropResults_outEpoch (d : Nat) (m : Memory) : (m.dropResults d).outEpoch = some d := rfl

theorem Config.Params.maxBits_le {p : Config.Params} (h : p.legal = true) : p.maxBits ≤ 12288 := by
  simp only [Config.Params.legal, Bool.and_eq_true, decide_eq_true_eq] at h; omega

theorem Config.Params.maxBits_mod {p : Config.Params} (h : p.legal = true) : p.maxBits % 32 = 0 := by
  simp only [Config.Params.legal, Bool.and_eq_true, beq_iff_eq] at h; exact h.1

theorem Config.Params.maxCorr_le {p : Config.Params} (h : p.legal = true) : p.maxCorr ≤ 4096 := by
  have := Config.Params.maxBits_le h; unfold Config.Params.maxCorr; omega

theorem Memory.mem_putResults {p : Config.Params} {out : Bits} {corr : List (Nat × Nat)} {m : Memory} {c : Host.Cell}
    (h : c ∈ (m.putResults p out corr).cells) :
    (c ∈ m.cells ∧ c.1 < outBase) ∨ (outBase ≤ c.1 ∧ c.1 < outBase + 4 * (p.maxBits / 32) ∧ c.2 ≠ 0#8) ∨
      (corrBase ≤ c.1 ∧ c.1 < corrBase + 4 * p.maxCorr ∧ c.2 ≠ 0#8) := by
  simp only [Memory.putResults, List.mem_append, List.mem_filter, decide_eq_true_eq] at h
  rcases h with h | h | h
  · exact .inl h
  · have := mem_wordCells h
    rw [packWords_length] at this
    exact .inr (.inl this)
  · have := mem_wordCells h
    rw [List.length_take] at this
    exact .inr (.inr ⟨this.1, by omega, this.2.2⟩)

/-- A completion keeps the canonical form. -/
theorem Memory.putResults_wf {p : Config.Params} (hp : p.legal = true) {m : Memory} (h : m.wf = true) (out : Bits)
    (corr : List (Nat × Nat)) : (m.putResults p out corr).wf = true := by
  have hb := Config.Params.maxBits_le hp
  refine Memory.wf_intro ?_ fun c hc => ?_
  · refine risingFrom_append (mid := outBase) (risingFrom_filter _ (Memory.wf_rising h)) ?_ (by simp [outBase])
      (risingFrom_append (mid := corrBase) (wordCells_rising _ _) ?_ (by simp [outBase, corrBase])
        (wordCells_rising _ _))
    · intro c hc; simpa using (List.mem_filter.mp hc).2
    · intro c hc
      have := mem_wordCells hc
      rw [packWords_length] at this
      simp only [outBase, corrBase] at *; omega
  · rcases Memory.mem_putResults hc with hc | hc | hc
    · simp [Memory.unlisted?, hc.2]
    · have : ¬ c.1 < outBase := by omega
      simp [Memory.unlisted?, this, Ne.symm hc.2.2]
    · have : ¬ c.1 < outBase := by simp only [outBase, corrBase] at *; omega
      simp [Memory.unlisted?, this, Ne.symm hc.2.2]

/-- IN_BUF's bytes are not changed by a completion (R61). -/
theorem Memory.byteAt_putResults_in {p : Config.Params} {m : Memory} {out : Bits} {corr : List (Nat × Nat)} {x : Nat}
    (hx : x < outBase) : (m.putResults p out corr).byteAt x = m.byteAt x := by
  have h1 : findCell (wordCells outBase (packWords (p.maxBits / 32) out) ++
      wordCells corrBase ((corr.map corrEntry).take p.maxCorr)) x = none := by
    apply findCell_eq_none
    intro c hc
    rcases List.mem_append.mp hc with hc | hc
    · have := mem_wordCells hc; omega
    · have := mem_wordCells hc; simp only [outBase, corrBase] at *; omega
  have h2 := findCell_filter (q := fun y => decide (y < outBase)) x m.cells
  simp only [Memory.byteAt, Memory.putResults, findCell_append, h1, h2, hx, decide_true, if_true, Option.or_none]
  simp [Memory.unlisted, hx]

/-- OUT_BUF's bytes after a completion are the lanes of the packed output (R56). -/
theorem Memory.byteAt_putResults_out {p : Config.Params} {m : Memory} {out : Bits} {corr : List (Nat × Nat)} {x : Nat}
    (h1 : outBase ≤ x) (h2 : x < corrBase) : (m.putResults p out corr).byteAt x =
      if x < outBase + 4 * (p.maxBits / 32) then
        lane ((packWords (p.maxBits / 32) out).getD ((x - outBase) / 4) 0#32) ((x - outBase) % 4) else 0#8 := by
  have hx : ¬ x < outBase := by omega
  have hc : findCell (wordCells corrBase ((corr.map corrEntry).take p.maxCorr)) x = none := by
    apply findCell_eq_none
    intro c hc
    have := mem_wordCells hc; omega
  have hf := findCell_filter (q := fun y => decide (y < outBase)) x m.cells
  have hw := findCell_wordCells x outBase (packWords (p.maxBits / 32) out)
  rw [packWords_length] at hw
  simp only [h1, true_and] at hw
  simp only [Memory.byteAt, Memory.putResults, findCell_append, hf, hx, decide_false, Bool.false_eq_true, if_false,
    Option.none_or, hc, Option.or_none, Memory.unlisted]
  exact hw

/-- CORR_BUF's bytes after a completion are the lanes of the report's entries (R57). -/
theorem Memory.byteAt_putResults_corr {p : Config.Params} (hp : p.legal = true) {m : Memory} {out : Bits}
    {corr : List (Nat × Nat)} {x : Nat} (h1 : corrBase ≤ x) : (m.putResults p out corr).byteAt x =
      if x < corrBase + 4 * ((corr.map corrEntry).take p.maxCorr).length then
        lane (((corr.map corrEntry).take p.maxCorr).getD ((x - corrBase) / 4) 0#32) ((x - corrBase) % 4) else 0#8 := by
  have hb := Config.Params.maxBits_le hp
  have hx : ¬ x < outBase := by simp only [outBase, corrBase] at *; omega
  have ho : findCell (wordCells outBase (packWords (p.maxBits / 32) out)) x = none := by
    apply findCell_eq_none
    intro c hc
    have := mem_wordCells hc
    rw [packWords_length] at this
    simp only [outBase, corrBase] at *; omega
  have hf := findCell_filter (q := fun y => decide (y < outBase)) x m.cells
  have hw := findCell_wordCells x corrBase ((corr.map corrEntry).take p.maxCorr)
  simp only [h1, true_and] at hw
  simp only [Memory.byteAt, Memory.putResults, findCell_append, hf, hx, decide_false, Bool.false_eq_true, if_false,
    Option.none_or, ho, Memory.unlisted]
  exact hw

/-- A soft reset keeps the canonical form. -/
theorem Memory.dropResults_wf {m : Memory} (h : m.wf = true) (d : Nat) : (m.dropResults d).wf = true := by
  refine Memory.wf_intro (risingFrom_filter _ (Memory.wf_rising h)) fun c hc => ?_
  simp only [Memory.dropResults, List.mem_filter, decide_eq_true_eq] at hc
  simp [Memory.unlisted?, hc.2]

/-- The bytes after a soft reset: IN_BUF's as before, every other the free byte of the draw. -/
theorem Memory.byteAt_dropResults (m : Memory) (d x : Nat) :
    (m.dropResults d).byteAt x = if x < outBase then m.byteAt x else Config.freeByte d x := by
  have hf := findCell_filter (q := fun y => decide (y < outBase)) x m.cells
  simp only [Memory.byteAt, Memory.dropResults, hf]
  by_cases hx : x < outBase <;> simp [hx, Memory.unlisted]

/-- The power-on reset's memory is in canonical form. -/
theorem Memory.empty_wf (d : Nat) (e : Option Nat) : Memory.wf { inEpoch := d, outEpoch := e, cells := [] } = true := rfl

/-- `State.reset`'s memory is in canonical form. -/
theorem reset_mem_wf : State.reset.mem.wf = true := rfl

end Sys2Proof.Machine
end

