-- ==== Sys2Proof/Laws/Bits.lean ====
section
/-! SUPPORT. Bit packing (20_memory.md R54, 30_encoding.md R77) and what reads of the three buffers give after a completion
(R56, R57, R61). -/

namespace Sys2Proof.Machine

/-! ### A bit sequence as a number -/

theorem bitsToNat_concat (b : Bits) (x : Bool) : bitsToNat (b ++ [x]) = 2 * bitsToNat b + x.toNat := by
  simp [bitsToNat]

theorem bitsToNat_lt (b : Bits) : bitsToNat b < 2 ^ b.length := by
  induction b using List.reverseRecOn with
  | nil => simp [bitsToNat]
  | append_singleton b x ih =>
    rw [bitsToNat_concat, List.length_append, List.length_singleton, Nat.pow_succ]
    have := Bool.toNat_le x
    omega

/-- The bits of the number are the sequence, its first bit the highest. -/
theorem testBit_bitsToNat (b : Bits) (i : Nat) :
    (bitsToNat b).testBit i = (decide (i < b.length) && b.getD (b.length - 1 - i) false) := by
  induction b using List.reverseRecOn generalizing i with
  | nil => simp [bitsToNat]
  | append_singleton b x ih =>
    rw [bitsToNat_concat]
    cases i with
    | zero => cases x <;> simp
    | succ i =>
      have hx := Bool.toNat_le x
      have hdiv : (2 * bitsToNat b + x.toNat) / 2 = bitsToNat b := by omega
      rw [Nat.testBit_succ, hdiv, ih]
      by_cases hi : i < b.length
      · have : b.length - (i + 1) < b.length := by omega
        simp [hi, List.getD_eq_getElem?_getD, this, Nat.sub_sub, Nat.add_comm 1 i]
      · simp [hi]

/-- R54: bit 31 − j of a packed word is bit j of the sequence. -/
theorem packWord_getLsbD (b : Bits) {j : Nat} (hj : j < 32) : (packWord b).getLsbD (31 - j) = b.getD j false := by
  have hlen : ((b ++ List.replicate 32 false).take 32).length = 32 := by simp
  simp only [packWord, BitVec.getLsbD_ofNat, testBit_bitsToNat, hlen]
  have h1 : 31 - j < 32 := by omega
  have h2 : 32 - 1 - (31 - j) = j := by omega
  simp only [h1, decide_true, Bool.true_and, h2, List.getD_eq_getElem?_getD, List.getElem?_take, hj, if_true,
    List.getElem?_append, List.getElem?_replicate]
  by_cases hb : j < b.length
  · simp [hb]
  · have : j - b.length < 32 := by omega
    simp [hb, this]

theorem packWords_getD : (k : Nat) → (b : Bits) → {w : Nat} → w < k →
    (packWords k b).getD w 0#32 = packWord (b.drop (32 * w))
  | 0, _, _, h => by omega
  | k + 1, b, 0, _ => by simp [packWords]
  | k + 1, b, w + 1, h => by
    have := packWords_getD k (b.drop 32) (w := w) (by omega)
    simp only [packWords, List.getD_cons_succ, this, List.drop_drop]
    congr 2; omega

/-! ### Words of the buffers after a completion -/

theorem readByte_of_implemented {s : State} {a : Nat} (h : implemented s.params a = true) :
    readByte s a = s.mem.byteAt a := by simp [readByte, h]

/-- R58: a byte that is not implemented reads 0. -/
theorem readByte_of_not_implemented {s : State} {a : Nat} (h : implemented s.params a = false) :
    readByte s a = 0#8 := by simp [readByte, h]

theorem implemented_in {p : Config.Params} {a : Nat} (h1 : inBase ≤ a) (h2 : a < inBase + p.maxBits / 8) :
    implemented p a = true := by simp [implemented, h1, h2]

theorem implemented_out {p : Config.Params} {a : Nat} (h1 : outBase ≤ a) (h2 : a < outBase + p.maxBits / 8) :
    implemented p a = true := by simp [implemented, h1, h2]

theorem implemented_corr {p : Config.Params} {a : Nat} (h1 : corrBase ≤ a) (h2 : a < corrBase + 4 * p.maxCorr) :
    implemented p a = true := by simp [implemented, h1, h2]

/-- The word at an address whose four bytes are the lanes of `v`. -/
theorem readWord_of_lanes {s : State} {a : Nat} {v : Word} (h : ∀ k, k < 4 → readByte s (a + k) = lane v k) :
    readWord s a = v := by
  have h0 : readByte s a = lane v 0 := h 0 (by omega)
  rw [readWord, h 3 (by omega), h 2 (by omega), h 1 (by omega), h0]
  exact ofLanes_lane v

/-- R58: a word none of whose bytes is implemented reads 0. -/
theorem readWord_of_not_implemented {s : State} {a : Nat} (h : ∀ k, k < 4 → implemented s.params (a + k) = false) :
    readWord s a = 0 := by
  refine readWord_of_lanes fun k hk => ?_
  rw [readByte_of_not_implemented (h k hk)]
  simp [lane]

theorem readWord_congr {s t : State} {a : Nat} (h : ∀ k, k < 4 → readByte s (a + k) = readByte t (a + k)) :
    readWord s a = readWord t a := by
  have h0 : readByte s a = readByte t a := h 0 (by omega)
  rw [readWord, readWord, h 3 (by omega), h 2 (by omega), h 1 (by omega), h0]

/-- The outputs a completion writes to the buffers: none after an error (R159). -/
def bufferOutputs : CmdResult → Bits × List (Nat × Nat)
  | .ok o => (o.out, o.corr)
  | .error _ => ([], [])

theorem complete_mem (r : CmdResult) (s : State) :
    (complete r s).mem = s.mem.putResults s.params (bufferOutputs r).1 (bufferOutputs r).2 := by
  cases r <;> rfl

@[simp] theorem complete_params (r : CmdResult) (s : State) : (complete r s).params = s.params := by cases r <;> rfl
@[simp] theorem complete_n (r : CmdResult) (s : State) : (complete r s).n = s.n := by cases r <;> rfl
@[simp] theorem complete_inLen (r : CmdResult) (s : State) : (complete r s).inLen = s.inLen := by cases r <;> rfl
@[simp] theorem complete_ctrlIe (r : CmdResult) (s : State) : (complete r s).ctrlIe = s.ctrlIe := by cases r <;> rfl
@[simp] theorem complete_busyViol (r : CmdResult) (s : State) : (complete r s).busyViol = s.busyViol := by
  cases r <;> rfl
@[simp] theorem complete_busy (r : CmdResult) (s : State) : (complete r s).busy = false := by cases r <;> rfl
@[simp] theorem complete_done (r : CmdResult) (s : State) : (complete r s).done = true := by cases r <;> rfl
@[simp] theorem complete_pending (r : CmdResult) (s : State) : (complete r s).pending = none := by cases r <;> rfl
@[simp] theorem complete_host (r : CmdResult) (s : State) : (complete r s).host = s.host := by cases r <;> rfl
@[simp] theorem complete_turns (r : CmdResult) (s : State) : (complete r s).turns = s.turns := by cases r <;> rfl
@[simp] theorem complete_response (r : CmdResult) (s : State) : (complete r s).response = s.response := by
  cases r <;> rfl
@[simp] theorem complete_draws (r : CmdResult) (s : State) : (complete r s).draws = s.draws := by cases r <;> rfl

/-- R61: a completion leaves every byte below OUT_BUF as it was. -/
theorem readByte_complete_in (r : CmdResult) (s : State) {a : Nat} (h : a < outBase) :
    readByte (complete r s) a = readByte s a := by
  simp only [readByte, complete_params, complete_mem, Memory.byteAt_putResults_in h]

/-- A byte outside the implemented words of OUT_BUF and CORR_BUF is not changed by a completion. -/
theorem readByte_complete_frame (r : CmdResult) (s : State) {a : Nat}
    (h : ¬ (outBase ≤ a ∧ a < outBase + s.params.maxBits / 8) ∧ ¬ (corrBase ≤ a ∧ a < corrBase + 4 * s.params.maxCorr)) :
    readByte (complete r s) a = readByte s a := by
  by_cases ha : a < outBase
  · exact readByte_complete_in r s ha
  · have hi : implemented s.params a = false := by
      simp only [implemented, Bool.or_eq_false_iff, Bool.and_eq_false_iff, decide_eq_false_iff_not]
      by_cases hin : inBase ≤ a ∧ a < inBase + s.params.maxBits / 8
      · exfalso
        have := h.1
        simp only [inBase, outBase] at *
        omega
      · refine ⟨⟨?_, ?_⟩, ?_⟩ <;> omega
    rw [readByte_of_not_implemented hi, readByte_of_not_implemented (by simpa using hi)]

/-- R61: IN_BUF's bits are not changed by a completion. -/
theorem inBit_complete (r : CmdResult) (s : State) (hp : s.params.legal = true) {j : Nat}
    (hj : j < s.params.maxBits) : inBit (complete r s) j = inBit s j := by
  have hb := Config.Params.maxBits_le hp
  have : readWord (complete r s) (inBase + 4 * (j / 32)) = readWord s (inBase + 4 * (j / 32)) :=
    readWord_congr fun k hk => readByte_complete_in r s (by simp only [inBase, outBase]; omega)
  simp only [inBit, bufBit, this]

/-- R56: word `w` of OUT_BUF after a completion. -/
theorem readWord_complete_out (r : CmdResult) (s : State) (hp : s.params.legal = true) {w : Nat}
    (hw : w < s.params.maxBits / 32) :
    readWord (complete r s) (outBase + 4 * w) = packWord ((bufferOutputs r).1.drop (32 * w)) := by
  have hb := Config.Params.maxBits_le hp
  have hm := Config.Params.maxBits_mod hp
  refine readWord_of_lanes fun k hk => ?_
  rw [readByte_of_implemented (implemented_out (by omega) (by simp only [complete_params]; omega)), complete_mem,
    Memory.byteAt_putResults_out (by omega) (by simp only [outBase, corrBase]; omega), if_pos (by omega)]
  have h1 : (outBase + 4 * w + k - outBase) / 4 = w := by omega
  have h2 : (outBase + 4 * w + k - outBase) % 4 = k := by omega
  rw [h1, h2, packWords_getD _ _ hw]

/-- R56: every bit of OUT_BUF after a completion: the output, then 0. -/
theorem outBit_complete (r : CmdResult) (s : State) (hp : s.params.legal = true) {j : Nat}
    (hj : j < s.params.maxBits) : outBit (complete r s) j = (bufferOutputs r).1.getD j false := by
  have hm := Config.Params.maxBits_mod hp
  have hw : j / 32 < s.params.maxBits / 32 := by omega
  have h32 : j % 32 < 32 := by omega
  simp only [outBit, bufBit, readWord_complete_out r s hp hw, packWord_getLsbD _ h32]
  simp only [List.getD_eq_getElem?_getD, List.getElem?_drop]
  have : 32 * (j / 32) + j % 32 = j := by omega
  rw [this]

/-- R57: every entry of CORR_BUF after a completion: the report, then 0. -/
theorem corrWord_complete (r : CmdResult) (s : State) (hp : s.params.legal = true) {e : Nat}
    (he : e < s.params.maxCorr) : corrWord (complete r s) e = ((bufferOutputs r).2.map corrEntry).getD e 0#32 := by
  refine readWord_of_lanes fun k hk => ?_
  rw [readByte_of_implemented (implemented_corr (by omega) (by simp only [complete_params]; omega)), complete_mem,
    Memory.byteAt_putResults_corr hp (by omega)]
  have h1 : (corrBase + 4 * e + k - corrBase) / 4 = e := by omega
  have h2 : (corrBase + 4 * e + k - corrBase) % 4 = k := by omega
  rw [h1, h2, List.length_take]
  generalize (bufferOutputs r).2.map corrEntry = l
  by_cases hl : e < l.length
  · rw [if_pos (by omega)]
    simp [List.getD_eq_getElem?_getD, he]
  · rw [if_neg (by omega)]
    have : l[e]? = none := by simpa using hl
    have hz : k = 0 ∨ k = 1 ∨ k = 2 ∨ k = 3 := by omega
    rw [List.getD_eq_getElem?_getD, this]
    rcases hz with rfl | rfl | rfl | rfl <;> decide

end Sys2Proof.Machine
end

