-- ==== Sys2Proof/Laws/Bus.lean ====
section
/-! SUPPORT. The host port: which target an address belongs to, and what one transaction does, case by case. -/

namespace Sys2Proof.Machine

/-! ### Addresses -/

theorem targetOf_reserved {a : Addr} (h1 : 0x4C ≤ a.toNat) (h2 : a.toNat < 0x4000) : targetOf a = .reserved := by
  have : allRegs[a.toNat / 4]? = none := by
    rw [List.getElem?_eq_none_iff]; simp only [allRegs, List.length_cons, List.length_nil]; omega
  simp [targetOf, h2, this]

theorem targetOf_inBuf {a : Addr} (h1 : 0x4000 ≤ a.toNat) (h2 : a.toNat < 0x8000) :
    targetOf a = .inBuf ((a.toNat - 0x4000) / 4) := by
  have : ¬ a.toNat < 0x4000 := by omega
  simp [targetOf, this, h2]

theorem targetOf_outBuf {a : Addr} (h1 : 0x8000 ≤ a.toNat) (h2 : a.toNat < 0xC000) :
    targetOf a = .outBuf ((a.toNat - 0x8000) / 4) := by
  have h3 : ¬ a.toNat < 0x4000 := by omega
  have h4 : ¬ a.toNat < 0x8000 := by omega
  simp [targetOf, h2, h3, h4]

theorem targetOf_corrBuf {a : Addr} (h1 : 0xC000 ≤ a.toNat) : targetOf a = .corrBuf ((a.toNat - 0xC000) / 4) := by
  have h2 : ¬ a.toNat < 0xC000 := by omega
  have h3 : ¬ a.toNat < 0x4000 := by omega
  have h4 : ¬ a.toNat < 0x8000 := by omega
  simp [targetOf, h2, h3, h4]

theorem targetOf_reg (r : Reg) : targetOf (regAddr r) = .reg r := by cases r <;> rfl

/-- An address below 0x4C that is aligned is a register's. -/
theorem exists_reg {a : Addr} (h1 : a.toNat < 0x4C) (h2 : a.toNat % 4 = 0) : ∃ r, a = regAddr r := by
  have key : ∀ n < 0x4C, n % 4 = 0 → ∃ r ∈ allRegs, BitVec.ofNat 16 n = regAddr r := by decide
  obtain ⟨r, _, hr⟩ := key _ h1 h2
  exact ⟨r, by simpa using hr⟩

/-- A target at which a bus address can point: its word index lies in its window. -/
theorem targetOf_inBuf_lt {a : Addr} {w : Nat} (h : targetOf a = .inBuf w) : w < 4096 := by
  have ha := a.isLt
  simp only [targetOf, inBase, outBase] at h
  split at h
  · split at h <;> cases h
  · split at h
    · cases h; omega
    · split at h <;> cases h

/-! ### One transaction -/

theorem memReadTxn_wellFormed {a : Addr} (h : a.toNat % 4 = 0) : (memReadTxn a).wellFormed = true := by
  simp [Txn.wellFormed, memReadTxn, h]

theorem memWriteTxn_wellFormed {a : Addr} {v : Word} (h : a.toNat % 4 = 0) : (memWriteTxn a v).wellFormed = true := by
  simp [Txn.wellFormed, memWriteTxn, h]

/-- A legal read is `busRead` of its target. -/
theorem busStep_read {a : Addr} (h : a.toNat % 4 = 0) (s : State) :
    busStep (memReadTxn a) s = busRead (targetOf a) s := by
  simp only [busStep, memReadTxn_wellFormed h, if_true]
  rfl

/-- A legal write is `busWrite` of its target. -/
theorem busStep_write {a : Addr} {v : Word} (h : a.toNat % 4 = 0) (s : State) :
    busStep (memWriteTxn a v) s = busWrite (targetOf a) v s := by
  simp only [busStep, memWriteTxn_wellFormed h, if_true]
  rfl

/-- R89: a read in the BUSY window of a target whose reads are then unspecified. -/
theorem busRead_unspecified {t : Target} {s : State} (hb : s.busy = true) (ht : unspecifiedWhileBusy s.params t = true) :
    busRead t s = { s with response := some (.data (Config.freeWord s.draws)), draws := s.draws + 1 } := by
  simp [busRead, hb, ht]

/-- Every other read returns the target's value. -/
theorem busRead_value {t : Target} {s : State} (h : s.busy = false ∨ unspecifiedWhileBusy s.params t = false) :
    busRead t s = { s with response := some (.data (readTarget s t)) } := by
  rcases h with h | h <;> simp [busRead, h]

/-- R58: an OUT_BUF word beyond the implemented size reads 0, BUSY or not. -/
theorem busRead_outBuf_unimplemented {s : State} {w : Nat} (hp : s.params.legal = true) (hw : w < 4096)
    (h : s.params.maxBits / 32 ≤ w) : busRead (.outBuf w) s = { s with response := some (.data 0) } := by
  have hm := Config.Params.maxBits_le hp
  have hmm := Config.Params.maxBits_mod hp
  have hz : readWord s (outBase + 4 * w) = 0 := readWord_of_not_implemented fun k hk => by
    simp [implemented, inBase, outBase, corrBase]; omega
  rw [busRead_value (.inr (by simpa [unspecifiedWhileBusy] using h)), readTarget, hz]

/-- R58: a CORR_BUF entry beyond the implemented size reads 0, BUSY or not. -/
theorem busRead_corrBuf_unimplemented {s : State} {e : Nat} (hp : s.params.legal = true) (h : s.params.maxCorr ≤ e) :
    busRead (.corrBuf e) s = { s with response := some (.data 0) } := by
  have hm := Config.Params.maxBits_le hp
  have hz : readWord s (corrBase + 4 * e) = 0 := readWord_of_not_implemented fun k hk => by
    simp [implemented, inBase, outBase, corrBase]; omega
  rw [busRead_value (.inr (by simpa [unspecifiedWhileBusy] using h)), readTarget, hz]

theorem guarded_busy {f : State → State} {s : State} (h : s.busy = true) : guarded f s = { s with busyViol := true } := by
  simp [guarded, h, setBusyViol]

theorem guarded_idle {f : State → State} {s : State} (h : s.busy = false) : guarded f s = f s := by
  simp [guarded, h]

/-- What a transaction can do to the block: nothing, a guarded write's BUSY_VIOL, or the effect of one write. -/
theorem busStep_cases (t : Txn) (s : State) :
    ((busStep t s).toBlock = s.toBlock ∧ s.draws ≤ (busStep t s).draws) ∨
    (s.busy = true ∧ t.wellFormed = true ∧ t.kind = .write ∧ isGuarded s.params (targetOf t.addr) = true ∧
      busStep t s = { s with busyViol := true, response := some .ok }) ∨
    (t.wellFormed = true ∧ t.kind = .write ∧
      ((targetOf t.addr = .reg .ctrl ∧ busStep t s = { writeCtrl t.wdata s with response := some .ok }) ∨
       (targetOf t.addr = .reg .status ∧ busStep t s = { clearFlags t.wdata s with response := some .ok }) ∨
       (s.busy = false ∧ targetOf t.addr = .reg .cmd ∧
         busStep t s = { acceptCommand t.wdata s with response := some .ok }) ∨
       (s.busy = false ∧ targetOf t.addr = .reg .n ∧ busStep t s = { s with n := t.wdata, response := some .ok }) ∨
       (s.busy = false ∧ targetOf t.addr = .reg .inLen ∧
         busStep t s = { s with inLen := t.wdata, response := some .ok }) ∨
       (s.busy = false ∧ ∃ w, targetOf t.addr = .inBuf w ∧ w < s.params.maxBits / 32 ∧
         busStep t s = { s with mem := s.mem.putWord (inBase + 4 * w) t.wdata, response := some .ok }))) := by
  unfold busStep
  by_cases hw : t.wellFormed = true
  · simp only [hw, if_true, true_and]
    cases hk : t.kind with
    | read =>
      refine .inl ?_
      simp only [busRead]
      split <;> simp
    | write =>
      simp only [true_and, busWrite]
      cases ht : targetOf t.addr with
      | reserved => exact .inl ⟨rfl, Nat.le_refl _⟩
      | outBuf w => exact .inl ⟨rfl, Nat.le_refl _⟩
      | corrBuf w => exact .inl ⟨rfl, Nat.le_refl _⟩
      | inBuf w =>
        by_cases hi : w < s.params.maxBits / 32
        · cases hb : s.busy with
          | true => exact .inr (.inl ⟨rfl, by simp [isGuarded, hi], by simp [writeTarget, writeInBuf, hi, guarded_busy hb, hb]⟩)
          | false =>
            refine .inr (.inr ?_)
            simp [writeTarget, writeInBuf, hi, guarded_idle hb, hb]
        · exact .inl (by simp [writeTarget, writeInBuf, hi])
      | reg r =>
        cases r with
        | ctrl => exact .inr (.inr (.inl ⟨rfl, rfl⟩))
        | status => exact .inr (.inr (.inr (.inl ⟨rfl, rfl⟩)))
        | cmd =>
          cases hb : s.busy with
          | true => exact .inr (.inl ⟨rfl, by simp [isGuarded], by simp [writeTarget, writeReg, guarded_busy hb, hb]⟩)
          | false => refine .inr (.inr ?_); simp [writeTarget, writeReg, guarded_idle hb]
        | n =>
          cases hb : s.busy with
          | true => exact .inr (.inl ⟨rfl, by simp [isGuarded], by simp [writeTarget, writeReg, guarded_busy hb, hb]⟩)
          | false => refine .inr (.inr ?_); simp [writeTarget, writeReg, guarded_idle hb, hb]
        | inLen =>
          cases hb : s.busy with
          | true => exact .inr (.inl ⟨rfl, by simp [isGuarded], by simp [writeTarget, writeReg, guarded_busy hb, hb]⟩)
          | false => refine .inr (.inr ?_); simp [writeTarget, writeReg, guarded_idle hb, hb]
        | _ => exact .inl ⟨rfl, Nat.le_refl _⟩
  · refine .inl ?_
    rw [if_neg hw]
    exact ⟨rfl, Nat.le_refl _⟩

/-- A transaction leaves parameters, script and schedule as they are. -/
theorem busStep_environment (t : Txn) (s : State) :
    (busStep t s).params = s.params ∧ (busStep t s).host = s.host ∧ (busStep t s).turns = s.turns := by
  unfold busStep
  split
  · split
    · simp only [busRead]; split <;> simp
    · simp only [busWrite]
      cases targetOf t.addr with
      | reserved => simp [writeTarget]
      | outBuf w => simp [writeTarget]
      | corrBuf w => simp [writeTarget]
      | inBuf w =>
        simp only [writeTarget, writeInBuf, guarded]
        split
        · split <;> simp
        · simp
      | reg r =>
        cases r with
        | ctrl => simp only [writeTarget, writeReg, writeCtrl]; split <;> simp
        | status => simp [writeTarget, writeReg]
        | cmd => simp only [writeTarget, writeReg, guarded]; split <;> simp
        | n => simp only [writeTarget, writeReg, guarded]; split <;> simp
        | inLen => simp only [writeTarget, writeReg, guarded]; split <;> simp
        | _ => simp [writeTarget, writeReg]
  · simp

end Sys2Proof.Machine
end

