-- ==== Sys2Proof/Laws/Crc.lean ====
section
/-! SUPPORT. The lengths of crc32_verifier's sequences (42_crc32_verifier.md R131, R133). -/

namespace Sys2Proof.Machine

@[simp] theorem poly_length : poly.length = 33 := by decide

@[simp] theorem xorFront_length : (w g : Bits) → (xorFront w g).length = w.length
  | [], _ => by simp [xorFront]
  | _ :: _, [] => by simp [xorFront]
  | _ :: w, _ :: g => by simp [xorFront, xorFront_length w g]

@[simp] theorem divideAt_length (g w : Bits) (i : Nat) : (divideAt g w i).length = w.length := by
  unfold divideAt
  split
  · rw [List.length_append, xorFront_length, ← List.length_append, List.take_append_drop]
  · rfl

theorem foldl_divideAt_length (g : Bits) : (is : List Nat) → (w : Bits) →
    (is.foldl (divideAt g) w).length = w.length
  | [], _ => rfl
  | i :: is, w => by rw [List.foldl_cons, foldl_divideAt_length g is, divideAt_length]

/-- R133: the remainder of division by POLY has 32 bits, or all of a shorter sequence. -/
theorem mod2Divide_poly_length (y : Bits) : (mod2Divide y poly).length = min y.length 32 := by
  unfold mod2Divide
  split
  · rename_i h; rw [poly_length] at h; omega
  · rename_i h
    rw [List.length_drop, foldl_divideAt_length]
    rw [poly_length] at *
    omega

/-- R135: an all-zero remainder is the REM word 0. -/
theorem remWord_of_check {r : Bits} (h : checkRemainder r = true) : remWord r = 0 := by
  have : ∀ (b : Bits) (acc : Nat), b.all (!·) = true → acc = 0 → b.foldl (fun acc x => 2 * acc + x.toNat) acc = 0 := by
    intro b
    induction b with
    | nil => intro acc _ h; exact h
    | cons x b ih =>
      intro acc hb h0
      simp only [List.all_cons, Bool.and_eq_true, Bool.not_eq_true'] at hb
      exact ih _ hb.2 (by simp [h0, hb.1])
  simp [remWord, bitsToNat, this r 0 h rfl]

end Sys2Proof.Machine
end

