-- ==== Sys2Proof/Laws/Hamming.lean ====
section
/-! SUPPORT. What hamming_sec_decoder's functions give: the parity count, the lengths of blocks, of extracted data and of
streams, and the three outcomes of a block. -/

namespace Sys2Proof.Machine

/-! ### Parameters of a block (R106, R107) -/

theorem parityBitsFrom_bounds (n : Nat) : (fuel r : Nat) → n + 1 ≤ 2 ^ (r + fuel) →
    n + 1 ≤ 2 ^ parityBitsFrom n r fuel ∧ (∀ r', r ≤ r' → n + 1 ≤ 2 ^ r' → parityBitsFrom n r fuel ≤ r')
  | 0, r, h => ⟨by simpa [parityBitsFrom] using h, fun r' hr _ => by simpa [parityBitsFrom] using hr⟩
  | fuel + 1, r, h => by
    unfold parityBitsFrom
    split
    · rename_i hc; exact ⟨hc, fun r' hr _ => hr⟩
    · rename_i hc
      obtain ⟨h1, h2⟩ := parityBitsFrom_bounds n fuel (r + 1) (by rwa [show r + 1 + fuel = r + (fuel + 1) by omega])
      refine ⟨h1, fun r' hr hr' => h2 r' ?_ hr'⟩
      rcases Nat.eq_or_lt_of_le hr with rfl | hlt
      · exact absurd hr' hc
      · exact hlt

/-- R106: r(n) is at most r exactly when r parity bits can index n positions and 0. -/
theorem parityBits_le_iff {n r : Nat} : parityBits n ≤ r ↔ n + 1 ≤ 2 ^ r := by
  obtain ⟨h1, h2⟩ := parityBitsFrom_bounds n n 0 (by simpa using Nat.lt_two_pow_self)
  refine ⟨fun h => h1.trans (Nat.pow_le_pow_right (by omega) h), fun h => h2 r (by omega) h⟩

theorem lt_two_pow_parityBits (n : Nat) : n < 2 ^ parityBits n := parityBits_le_iff.mp (Nat.le_refl _)

theorem parityBits_le_self (n : Nat) : parityBits n ≤ n := parityBits_le_iff.mpr Nat.lt_two_pow_self

theorem dataLen_add_parityBits (n : Nat) : dataLen n + parityBits n = n := by
  have := parityBits_le_self n
  unfold dataLen; omega

/-- R107: a block of at least 3 bits carries at least one data bit. -/
theorem dataLen_pos {n : Nat} (h : 3 ≤ n) : 1 ≤ dataLen n := by
  have : parityBits n ≤ n - 1 := parityBits_le_iff.mpr <| by
    obtain ⟨k, rfl⟩ : ∃ k, n = k + 3 := ⟨n - 3, by omega⟩
    have := (Nat.lt_two_pow_self : k < 2 ^ k)
    rw [show k + 3 - 1 = k + 2 by omega, Nat.pow_add]
    omega
  unfold dataLen; omega

/-! ### Lengths -/

@[simp] theorem flipAt_length (blk : Bits) (k : Nat) : (flipAt blk k).length = blk.length := by simp [flipAt]

theorem extractFrom_length : (k : Nat) → (b : Bits) →
    (extractFrom k b).length = (List.range' k b.length).countP (fun k => !isParityPos k)
  | _, [] => rfl
  | k, b :: bs => by
    simp only [extractFrom, List.length_cons, List.range'_succ, List.countP_cons]
    split <;> rename_i h <;> simp [h, extractFrom_length (k + 1) bs]

theorem extract_length_le (blk : Bits) : (extract blk).length ≤ blk.length := by
  rw [extract, extractFrom_length]
  exact List.countP_le_length.trans (by simp)

@[simp] theorem placeFrom_length : (k cnt : Nat) → (d : Bits) → (placeFrom k cnt d).length = cnt
  | _, 0, _ => rfl
  | k, cnt + 1, d => by
    unfold placeFrom
    split <;> simp [placeFrom_length (k + 1) cnt]

@[simp] theorem writeParity_length (blk : Bits) (i : Nat) : (writeParity blk i).length = blk.length := by
  simp [writeParity]

@[simp] theorem encodeBlock_length (n : Nat) (d : Bits) : (encodeBlock n d).length = n := by
  have key : ∀ (is : List Nat) (b : Bits), (is.foldl writeParity b).length = b.length := by
    intro is
    induction is with
    | nil => intro b; rfl
    | cons i is ih => intro b; rw [List.foldl_cons, ih, writeParity_length]
  rw [encodeBlock, key, placeFrom_length]

theorem encodeBlocks_length (n : Nat) : (cnt : Nat) → (x : Bits) → (encodeBlocks n cnt x).length = cnt * n
  | 0, _ => by simp [encodeBlocks]
  | cnt + 1, x => by
    rw [encodeBlocks, List.length_append, encodeBlock_length, encodeBlocks_length n cnt, Nat.succ_mul, Nat.add_comm]

/-- The working copy a decoded block returns has the block's length. -/
theorem decodeBlock_length {n : Nat} {blk blk' : Bits} {c : Option Nat} (h : decodeBlock n blk = .ok (blk', c)) :
    blk'.length = blk.length := by
  simp only [decodeBlock] at h
  split at h
  · cases h; rfl
  · split at h <;> cases h
    exact flipAt_length _ _

/-- R116: a stream that decodes gives at most the stream's bits, and at most one correction for each block. -/
theorem decodeBlocks_bounds (n : Nat) : (b cnt : Nat) → (x : Bits) → {data : Bits} → {corr : List (Nat × Nat)} →
    decodeBlocks n b cnt x = .ok (data, corr) → data.length ≤ x.length ∧ corr.length ≤ cnt
  | _, 0, _, _, _, h => by cases h; simp
  | b, cnt + 1, x, data, corr, h => by
    simp only [decodeBlocks] at h
    split at h
    · cases h
    · rename_i blk c hb
      split at h
      · cases h
      · rename_i data' corr' hr
        cases h
        obtain ⟨h1, h2⟩ := decodeBlocks_bounds n (b + 1) cnt _ hr
        have h3 := extract_length_le blk
        have h4 := decodeBlock_length hb
        have h5 : c.toList.length ≤ 1 := by cases c <;> simp
        simp only [List.length_append, List.length_map, List.length_drop, List.length_take] at *
        omega

/-- R113: what each outcome of a block says. -/
theorem decodeBlock_error {n s : Nat} {blk : Bits} (h : decodeBlock n blk = .error s) : s = syndrome n blk ∧ n < s := by
  simp only [decodeBlock] at h
  split at h
  · cases h
  · split at h
    · cases h
    · cases h; exact ⟨rfl, by omega⟩

/-- R116: the block a stream fails on is one of its blocks. -/
theorem decodeBlocks_error (n : Nat) : (b cnt : Nat) → (x : Bits) → {e s : Nat} →
    decodeBlocks n b cnt x = .error (e, s) → b ≤ e ∧ e < b + cnt ∧ n < s
  | _, 0, _, _, _, h => by cases h
  | b, cnt + 1, x, e, s, h => by
    simp only [decodeBlocks] at h
    split at h
    · rename_i hs
      cases h
      exact ⟨Nat.le_refl _, by omega, (decodeBlock_error hs).2⟩
    · split at h
      · rename_i hr
        cases h
        obtain ⟨h1, h2, h3⟩ := decodeBlocks_error n (b + 1) cnt _ hr
        exact ⟨by omega, by omega, h3⟩
      · cases h

end Sys2Proof.Machine
end

