-- ==== Sys2Proof/Laws/Step.lean ====
section
/-! SUPPORT. What a step can do, said once: `exec` is a completion with the command's result, and a step is a power-on reset, a
completion, one bus transaction, or no change of the block. -/

namespace Sys2Proof.Machine

/-- The result of a command on a state's operands (30_encoding.md R75, R80). -/
def resultOf (i : Instr) (s : State) : CmdResult :=
  match i with
  | .hamDecode => hamDecode s.params.maxBits (operandN s) (operandLen s) (inBit s)
  | .hamEncode => hamEncode s.params.maxBits (operandN s) (operandLen s) (inBit s)
  | .crcVerify => crcVerify s.params.maxBits (operandLen s) (inBit s)
  | .crcAppend => crcAppend s.params.maxBits (operandLen s) (inBit s)
  | .crcRemainder => crcRemainder s.params.maxBits (operandLen s) (inBit s)

/-- A command is the completion with its result (R96). -/
theorem exec_eq_complete (i : Instr) (s : State) : exec i s = .next (complete (resultOf i s) s) := by cases i <;> rfl

/-- The result of an accepted word: its command's, or ILLEGAL_COMMAND (R80). -/
def resultOfWord (w : Word) (s : State) : CmdResult :=
  match decode w with
  | .ok i => resultOf i s
  | .error _ => illegalCommand

theorem engineStep_eq_complete {s : State} {w : Word} (h : s.pending = some w) :
    engineStep s = .next (complete (resultOfWord w s) s) := by
  unfold engineStep resultOfWord
  rw [h]
  cases hd : decode w <;> simp [hd, exec_eq_complete]

/-- The engine's step answers a next state only with a command word held. -/
theorem engineStep_next {s t : State} (h : engineStep s = .next t) :
    ∃ w, s.pending = some w ∧ t = complete (resultOfWord w s) s := by
  cases hp : s.pending with
  | none => simp [engineStep, hp] at h
  | some w => rw [engineStep_eq_complete hp] at h; cases h; exact ⟨w, rfl, rfl⟩

theorem resultOf_turns (i : Instr) (s : State) (ts : List Turn) : resultOf i { s with turns := ts } = resultOf i s := by
  cases i <;> rfl

theorem resultOfWord_turns (w : Word) (s : State) (ts : List Turn) :
    resultOfWord w { s with turns := ts } = resultOfWord w s := by
  simp only [resultOfWord]
  split <;> simp [resultOf_turns]

/-- What a host turn can do: one transaction of the script, the STATUS read of a WAIT, or nothing. -/
theorem hostTurn_cases (s : State) :
    (∃ t rest, s.host = .bus t :: rest ∧ hostTurn s = busStep t { s with host := rest }) ∨
    ((∀ t rest, s.host ≠ .bus t :: rest) ∧ (hostTurn s).toBlock = s.toBlock ∧ (hostTurn s).params = s.params ∧
      (hostTurn s).turns = s.turns ∧ (hostTurn s).draws = s.draws) := by
  unfold hostTurn
  split
  · rename_i h; exact .inr ⟨by simp [h], rfl, rfl, rfl, rfl⟩
  · rename_i t rest h; exact .inl ⟨t, rest, h, rfl⟩
  · rename_i rest h
    refine .inr ⟨by simp [h], ?_⟩
    have ha : (regAddr .status).toNat % 4 = 0 := by decide
    rw [busStep_read ha, targetOf_reg, busRead_value (.inr rfl)]
    simp
  · rename_i rest h; exact .inr ⟨by simp [h], rfl, rfl, rfl, rfl⟩

/-- What a step can do. -/
theorem step_cases {s t : State} (h : step s = .next t) :
    (∃ ts, s.turns = .rst :: ts ∧ t = powerOnReset { s with turns := ts }) ∨
    (Completes s ∧ ∃ w, s.pending = some w ∧ t = { complete (resultOfWord w s) s with turns := s.turns.tail }) ∨
    (∃ x rest, nextTxn s = some x ∧ t = busStep x { s with turns := s.turns.tail, host := rest }) ∨
    (nextTxn s = none ∧ ¬ Completes s ∧ (∀ ts, s.turns ≠ .rst :: ts) ∧ t.toBlock = s.toBlock ∧ t.params = s.params ∧
      t.draws = s.draws ∧ t.turns = s.turns.tail) := by
  have hcomp : ∀ (w : Word) (ts : List Turn), complete (resultOfWord w s) { s with turns := ts } =
      { complete (resultOfWord w s) s with turns := ts } := by
    intro w ts
    cases resultOfWord w s <;> rfl
  unfold step nextStep at h
  split at h
  · rename_i ts hts
    simp only [Host.Outcome.next.injEq] at h
    rcases hostTurn_cases { s with turns := ts } with ⟨x, rest, hx, he⟩ | ⟨hx, h1, h2, h3, h4⟩
    · refine .inr (.inr (.inl ⟨x, rest, ?_, ?_⟩))
      · have hx' : s.host = .bus x :: rest := hx
        simp [nextTxn, hts, hx']
      · rw [← h, he, hts]; rfl
    · refine .inr (.inr (.inr ⟨?_, ?_, by simp [hts], by rw [← h]; exact h1, by rw [← h]; exact h2,
        by rw [← h]; exact h4, by rw [← h, h3, hts]; rfl⟩))
      · cases hh : s.host with
        | nil => simp [nextTxn, hts, hh]
        | cons m rest =>
          cases m with
          | bus x => exact absurd hh (hx x rest)
          | _ => simp [nextTxn, hts, hh]
      · rintro ⟨_, ⟨ts', h'⟩ | ⟨h', _⟩⟩ <;> rw [hts] at h' <;> cases h'
  · rename_i ts hts
    unfold engineTurn at h
    split at h
    · rename_i hb
      obtain ⟨w, hw, rfl⟩ := engineStep_next h
      refine .inr (.inl ⟨⟨hb, .inl ⟨ts, hts⟩⟩, w, hw, ?_⟩)
      rw [resultOfWord_turns, hcomp, hts]; rfl
    · rename_i hb
      simp only [Host.Outcome.next.injEq] at h
      refine .inr (.inr (.inr ⟨by simp [nextTxn, hts], ?_, by simp [hts], by rw [← h], by rw [← h], by rw [← h],
        by rw [← h, hts]; rfl⟩))
      rintro ⟨hb', -⟩; exact hb hb'
  · rename_i ts hts
    simp only [Host.Outcome.next.injEq] at h
    exact .inl ⟨ts, hts, h.symm⟩
  · rename_i hts
    split at h
    · rename_i hb
      simp only [Bool.and_eq_true] at hb
      obtain ⟨w, hw, rfl⟩ := engineStep_next h
      refine .inr (.inl ⟨⟨hb.1, .inr ⟨hts, hb.2⟩⟩, w, hw, ?_⟩)
      have := hcomp w []
      rw [hts]
      have hs : { s with turns := [] } = s := by rw [← hts]
      rw [hs] at this
      exact this
    · rename_i hb
      simp only [Host.Outcome.next.injEq] at h
      have hs : { s with turns := [] } = s := by rw [← hts]
      rcases hostTurn_cases s with ⟨x, rest, hx, he⟩ | ⟨hx, h1, h2, h3, h4⟩
      · refine .inr (.inr (.inl ⟨x, rest, by simp [nextTxn, hts, hx], ?_⟩))
        rw [← h, he, hts]
        congr 1
      · refine .inr (.inr (.inr ⟨?_, ?_, by simp [hts], by rw [← h]; exact h1, by rw [← h]; exact h2,
          by rw [← h]; exact h4, by rw [← h, h3, hts]; rfl⟩))
        · cases hh : s.host with
          | nil => simp [nextTxn, hts, hh]
          | cons m rest =>
            cases m with
            | bus x => exact absurd hh (hx x rest)
            | _ => simp [nextTxn, hts, hh]
        · rintro ⟨hb', ⟨ts', h'⟩ | ⟨_, hw⟩⟩
          · rw [hts] at h'; cases h'
          · exact hb (by simp [hb', hw])

end Sys2Proof.Machine
end

