-- ==== Sys2Proof/Laws/Complete.lean ====
section
/-! SUPPORT. What a completion leaves, in the words of Safety.lean: its frame, `Succeeded` for a result, `Errored` for an error;
and the bounds every command's result keeps (40_host_access.md R96, 60_exceptions.md R159). -/

namespace Sys2Proof.Machine

/-- R60, R61: the frame of every completion. -/
theorem complete_frame (r : CmdResult) (s : State) : CompletionFrame s (complete r s) := by
  refine ⟨by simp, by simp, by simp, by simp, by simp, by simp, by simp, by simp, by simp, fun a h => ?_⟩
  refine readByte_complete_frame r s ?_
  simpa [storedByCompletion] using h

/-- R96: the completion with outputs that fit. -/
theorem complete_succeeded {o : CmdOutput} {s : State} (hp : s.params.legal = true)
    (ho : o.out.length ≤ s.params.maxBits) (hc : o.corr.length ≤ s.params.maxCorr) :
    Succeeded s (complete (.ok o) s) o.out o.corr o.rem o.remLen o.valid where
  outFits := ho
  outLen := rfl
  outBuf _ hj := outBit_complete _ s hp hj
  corrFits := hc
  corrCount := rfl
  corrBuf _ he := corrWord_complete _ s hp he
  rem := rfl
  remLen := rfl
  errCode := rfl
  errBlock := rfl
  errSyndrome := rfl
  errN := rfl
  errLen := rfl
  busy := rfl
  done := rfl
  err := rfl
  valid := rfl
  corrected := rfl
  pending := rfl
  frame := complete_frame _ s

/-- R159: the completion with an error. -/
theorem complete_errored {e : CmdError} {s : State} (hp : s.params.legal = true) :
    Errored s (complete (.error e) s) (errCodeOf e.kind).toNat e.block e.syndrome e.n e.len where
  outLen := rfl
  outBuf _ hj := by rw [outBit_complete _ s hp hj]; rfl
  corrCount := rfl
  corrBuf _ he := by rw [corrWord_complete _ s hp he]; rfl
  rem := rfl
  remLen := rfl
  errCode := by simp [complete, storeResult, storeError, resultFlags, endOfCommand]
  errBlock := rfl
  errSyndrome := rfl
  errN := rfl
  errLen := rfl
  busy := rfl
  done := rfl
  err := rfl
  valid := rfl
  corrected := rfl
  pending := rfl
  frame := complete_frame _ s

/-! ### The bounds of a command's result -/

/-- What R36, R37, R39, R77 and R27 say of a command's outputs. -/
structure CmdOutput.Fits (p : Config.Params) (o : CmdOutput) : Prop where
  out : o.out.length ≤ p.maxBits
  corr : o.corr.length ≤ p.maxCorr
  remLen : o.remLen ≤ 32
  rem : o.rem.toNat < 2 ^ o.remLen
  valid : o.valid = true → o.rem = 0

theorem bufSeq_length (buf : Nat → Bool) (a b : Nat) : (bufSeq buf a b).length = b - a := by simp [bufSeq]

theorem remWord_lt {r : Bits} {k : Nat} (h : r.length ≤ k) : (remWord r).toNat < 2 ^ k := by
  have h1 := bitsToNat_lt r
  have h2 : 2 ^ r.length ≤ 2 ^ k := Nat.pow_le_pow_right (by omega) h
  have h3 : (remWord r).toNat ≤ bitsToNat r := by simpa [remWord] using Nat.mod_le _ _
  omega

theorem resultOf_fits {i : Instr} {s : State} {o : CmdOutput} (h : resultOf i s = .ok o) : o.Fits s.params := by
  cases i with
  | hamDecode =>
    simp only [resultOf, hamDecode] at h
    split at h; · cases h
    split at h; · cases h
    split at h; · cases h
    split at h
    · cases h
    · rename_i h1 h2 h3 data corr hd
      cases h
      obtain ⟨b1, b2⟩ := decodeBlocks_bounds _ _ _ _ hd
      rw [bufSeq_length] at b1
      have : operandLen s / operandN s ≤ s.params.maxBits / 3 :=
        (Nat.div_le_div_left (by omega) (by omega)).trans (Nat.div_le_div_right (by omega))
      exact ⟨by simp only; omega, by simp only [Config.Params.maxCorr]; omega, by simp, by simp, by simp⟩
  | hamEncode =>
    simp only [resultOf, hamEncode] at h
    split at h; · cases h
    split at h; · cases h
    split at h; · cases h
    split at h
    · cases h
    · cases h
      exact ⟨by simp only [encodeBlocks_length]; omega, by simp, by simp, by simp, by simp⟩
  | crcVerify =>
    simp only [resultOf, crcVerify] at h
    split at h; · cases h
    split at h
    · cases h
    · cases h
      refine ⟨?_, by simp, by simp, remWord_lt (k := 32) (by rw [mod2Divide_poly_length]; omega), fun hv => remWord_of_check hv⟩
      simp only
      split
      · rw [List.length_take, bufSeq_length]; omega
      · simp
  | crcAppend =>
    simp only [resultOf, crcAppend] at h
    split at h
    · cases h
    · cases h
      have hl := mod2Divide_poly_length (bufSeq (inBit s) 0 (operandLen s) ++ List.replicate 32 false)
      refine ⟨?_, by simp, by simp, remWord_lt (k := 32) (by omega), by simp⟩
      simp only [List.length_append, bufSeq_length]
      omega
  | crcRemainder =>
    simp only [resultOf, crcRemainder] at h
    split at h
    · cases h
    · cases h
      have hl := mod2Divide_poly_length (bufSeq (inBit s) 0 (operandLen s))
      exact ⟨by simp, by simp, by simp only; omega, remWord_lt (Nat.le_refl _), fun hv => remWord_of_check hv⟩

/-- The same of the result of an accepted word, command or not. -/
theorem resultOfWord_fits {w : Word} {s : State} {o : CmdOutput} (h : resultOfWord w s = .ok o) : o.Fits s.params := by
  unfold resultOfWord at h
  split at h
  · exact resultOf_fits h
  · cases h

/-- R154: no command raises INVALID_CHARACTER. -/
theorem resultOf_error_kind {i : Instr} {s : State} {e : CmdError} (h : resultOf i s = .error e) :
    e.kind ≠ .invalidCharacter := by
  intro hk
  cases i <;> simp only [resultOf, hamDecode, hamEncode, crcVerify, crcAppend, crcRemainder] at h <;>
    (repeat' split at h) <;> cases h <;> cases hk

theorem resultOfWord_error_kind {w : Word} {s : State} {e : CmdError} (h : resultOfWord w s = .error e) :
    e.kind ≠ .invalidCharacter := by
  unfold resultOfWord at h
  split at h
  · exact resultOf_error_kind h
  · cases h; simp

/-- A command's result depends on the state only through the capacity, N, IN_LEN and the first IN_LEN bits of IN_BUF. -/
theorem resultOf_congr {i : Instr} {s t : State} (hp : t.params.maxBits = s.params.maxBits) (hn : t.n = s.n)
    (hl : t.inLen = s.inLen) (hb : ∀ j, j < s.inLen.toNat → inBit t j = inBit s j) : resultOf i t = resultOf i s := by
  have hseq : bufSeq (inBit t) 0 (operandLen s) = bufSeq (inBit s) 0 (operandLen s) := by
    refine List.map_congr_left fun j hj => hb j ?_
    simp only [List.mem_range', operandLen] at hj
    obtain ⟨k, hk, rfl⟩ := hj
    omega
  have hseq' : bufSeq (inBit t) 0 s.inLen.toNat = bufSeq (inBit s) 0 s.inLen.toNat := hseq
  cases i <;> simp only [resultOf, operandN, operandLen, hn, hl, hp]
  · unfold hamDecode; rw [hseq']
  · unfold hamEncode; rw [hseq']
  · unfold crcVerify; rw [hseq']
  · unfold crcAppend; rw [hseq']
  · unfold crcRemainder; rw [hseq']

end Sys2Proof.Machine
end

