-- ==== Sys2Proof/Laws/PerInstr.lean ====
section
/-! SUPPORT. The statements made of each instruction as syntax, one lemma per constructor. Family `EncodeWellFormed`: a command is
well formed (30_encoding.md R75), and its word keeps the format CMD32 (R71): RSV is 0 and OP is a defined value (R72). -/

namespace Sys2Proof.Laws.EncodeWellFormed

/-- What the family says of one command. -/
def Statement (i : Instr) : Prop :=
  i.wellFormed = true ∧ commandWordWellFormed (encode i) = true ∧ rsvField (encode i) = 0 ∧ opField (encode i) = opOf i

theorem hamDecode : Statement .hamDecode := by unfold Statement; decide

theorem hamEncode : Statement .hamEncode := by unfold Statement; decide

theorem crcVerify : Statement .crcVerify := by unfold Statement; decide

theorem crcAppend : Statement .crcAppend := by unfold Statement; decide

theorem crcRemainder : Statement .crcRemainder := by unfold Statement; decide

end Sys2Proof.Laws.EncodeWellFormed
end

