-- ==== Sys2Proof/Tests/Slice0.lean ====
section
/-! SUPPORT. The tests of the model: well-formedness, decoding of words written out from the spec, one step of each command on
vectors of 95_test_vectors.md, and for each obligation with hypotheses a witness that meets them.
The expected values are the spec's (95_test_vectors.md, and the examples of the rules named). -/

namespace Sys2Proof.Tests

open Sys2Proof.Machine Sys2Proof.Claims

/-! ### Small states -/

/-- The smallest capacity of 00_scope.md R7: MAX_BITS = 64, so MAX_CORR = 21. -/
def small : Config.Params := { maxBits := 64, blockId := 0x48430001#32, blockBase := 0 }

/-- A block of the smallest capacity after reset. -/
def idle : State := { State.reset with params := small }

/-- N, IN_LEN and the two words of IN_BUF, as a host wrote them. -/
def withIn (n len : Nat) (w0 w1 : Word) : State :=
  { idle with
    n := BitVec.ofNat 32 n, inLen := BitVec.ofNat 32 len
    mem := (idle.mem.putWord 0x4000 w0).putWord 0x4004 w1 }

/-- HAM_DECODE accepted, not yet completed. -/
def pendingState : State := { withIn 7 7 0x66000000 0 with pending := some 0x00000001#32, busy := true }

/-- A completed command: DONE, BUSY_VIOL and IE set. -/
def doneState : State := { idle with done := true, busyViol := true, ctrlIe := true }

/-- A state with a schedule and a script. -/
def play (s : State) (ts : List Turn) (hs : List HostMove) : State := { s with turns := ts, host := hs }

/-- The next state, where there is one. -/
def after (o : Host.Outcome State Fault Refusal) : Option State :=
  match o with
  | .next t => some t
  | _ => none

/-- The state after a command, the state before where there is none. -/
def ran (i : Instr) (s : State) : State := (after (exec i s)).getD s

/-! ### Well-formedness refuses ill-formed terms -/

theorem test_txn_size_refused : Txn.wellFormed { kind := .read, addr := 0#16, size := 1, wdata := 0 } = false := by decide
theorem test_txn_size8_refused : Txn.wellFormed { kind := .write, addr := 0#16, size := 8, wdata := 0 } = false := by decide
theorem test_txn_misaligned_refused : Txn.wellFormed { kind := .read, addr := 2#16, size := 4, wdata := 0 } = false := by
  decide
theorem test_txn_aligned : Txn.wellFormed { kind := .write, addr := 0xFFFC#16, size := 4, wdata := 0 } = true := by decide
theorem test_word_reserved_bits_refused : commandWordWellFormed 0x00000011#32 = false := by decide
theorem test_word_op0_refused : commandWordWellFormed 0x00000000#32 = false := by decide
theorem test_word_op6_refused : commandWordWellFormed 0x00000006#32 = false := by decide
theorem test_params_odd_refused : Config.Params.legal { maxBits := 100, blockId := 0, blockBase := 0 } = false := by decide
theorem test_params_small_refused : Config.Params.legal { maxBits := 32, blockId := 0, blockBase := 0 } = false := by decide
theorem test_params_large_refused : Config.Params.legal { maxBits := 12320, blockId := 0, blockBase := 0 } = false := by
  decide
theorem test_params_defaults : Config.defaults.legal = true := by decide
theorem test_memory_zero_listed_refused :
    Memory.wf { inEpoch := 0, outEpoch := none, cells := [(0x8000, 0#8)] } = false := by decide
theorem test_memory_order_refused :
    Memory.wf { inEpoch := 0, outEpoch := none, cells := [(0x4004, 1#8), (0x4000, 1#8)] } = false := by decide
theorem test_memory_write_wf : (withIn 7 7 0x66000000 0).mem.wf = true := by decide

/-! ### Decoding: the words of 30_encoding.md R72, bit by bit (RSV, OP) -/

theorem test_decode_hamDecode : decode 0b00000000000000000000000000000001#32 = .ok .hamDecode := by decide
theorem test_decode_hamEncode : decode 0b00000000000000000000000000000010#32 = .ok .hamEncode := by decide
theorem test_decode_crcVerify : decode 0b00000000000000000000000000000011#32 = .ok .crcVerify := by decide
theorem test_decode_crcAppend : decode 0b00000000000000000000000000000100#32 = .ok .crcAppend := by decide
theorem test_decode_crcRemainder : decode 0b00000000000000000000000000000101#32 = .ok .crcRemainder := by decide
theorem test_decode_op0 : decode 0b00000000000000000000000000000000#32 = .error (.reservedOp 0) := by decide
theorem test_decode_op15 : decode 0b00000000000000000000000000001111#32 = .error (.reservedOp 15) := by decide
theorem test_decode_top_bit : decode 0b10000000000000000000000000000001#32 = .error (.reservedBits 0x8000000) := by decide
theorem test_decodeTableWord : decodeTableWord 32 3 = some .crcVerify ∧ decodeTableWord 32 19 = none := by decide

/-! ### One step of each command (95_test_vectors.md) -/

/-- V-L1 step 1: HAM_ENCODE of "1011" with N = 7 gives "0110011". -/
theorem test_hamEncode_vl1 :
    (ran .hamEncode (withIn 7 4 0xB0000000 0)).outLen = 7 ∧
      readWord (ran .hamEncode (withIn 7 4 0xB0000000 0)) 0x8000 = 0x66000000#32 := by decide +kernel

/-- V-H5: HAM_ENCODE with N = 7 and 5 bits: LENGTH_MISMATCH, n 7, len 5. -/
theorem test_hamEncode_length :
    (let t := ran .hamEncode (withIn 7 5 0 0); (t.errCode, t.errN, t.errLen, statusWord t)) = (2, 7, 5, 0x06) := by
  decide +kernel

/-- V-L1 step 3: position 4 flipped: one correction (0, 4), data "1011", STATUS 0x12. -/
theorem test_hamDecode_vl1 :
    (let t := ran .hamDecode (withIn 7 7 0x76000000 0);
      (t.outLen, readWord t 0x8000, t.corrCount, readWord t 0xC000, statusWord t)) =
      (4, 0xB0000000, 1, 0x00000004, 0x12) := by decide +kernel

/-- V-H4: two blocks of N = 10, the first correctable, the second not: UNCORRECTABLE_BLOCK, block 2, syndrome 11, and the
correction of the first block discarded. -/
theorem test_hamDecode_uncorrectable :
    (let t := ran .hamDecode (withIn 10 20 0x07484000 0);
      (t.errCode, t.errBlock, t.errSyndrome, t.errN, t.errLen, t.corrCount, readWord t 0xC000)) =
      (3, 2, 11, 10, 20, 0, 0) := by decide +kernel

/-- V-C1: POLY itself is a valid frame of the message "1". -/
theorem test_crcVerify_vc1 :
    (let t := ran .crcVerify (withIn 0 33 0x82608EDB 0x80000000);
      (t.outLen, readWord t 0x8000, t.rem, t.remLen, t.valid, t.err)) = (1, 0x80000000, 0, 32, true, false) := by
  decide +kernel

/-- R140: POLY with bit 31 flipped: VALID 0, REM = x^1 = 2. -/
theorem test_crcVerify_flip :
    (let t := ran .crcVerify (withIn 0 33 0x82608EDA 0x80000000);
      (t.outLen, t.rem, t.valid, t.err, t.errCode)) = (0, 2, false, false, 0) := by decide +kernel

/-- V-C1: CRC_APPEND of "1": POLY, REM 0x04C11DB7. -/
theorem test_crcAppend_vc1 :
    (let t := ran .crcAppend (withIn 0 1 0x80000000 0);
      (t.outLen, readWord t 0x8000, readWord t 0x8004, t.rem, t.remLen, t.valid)) =
      (33, 0x82608EDB, 0x80000000, 0x04C11DB7, 32, false) := by decide +kernel

/-- R138: the message must leave room for 32 check bits: 33 bits of 64 do not. -/
theorem test_crcAppend_capacity :
    (let t := ran .crcAppend (withIn 7 33 0 0); (t.errCode, t.errN, t.errLen)) = (6, 0, 33) := by decide +kernel

/-- V-C: the remainder of "101" is itself, three bits. -/
theorem test_crcRemainder_short :
    (let t := ran .crcRemainder (withIn 0 3 0xA0000000 0); (t.rem, t.remLen, t.valid, t.outLen)) = (5, 3, false, 0) := by
  decide +kernel

/-- R139, R135: the empty input: REM 0, REM_LEN 0, VALID 1. -/
theorem test_crcRemainder_empty :
    (let t := ran .crcRemainder (withIn 0 0 0 0); (t.rem, t.remLen, t.valid, statusWord t)) = (0, 0, true, 0x0A) := by
  decide +kernel

/-- R161: an illegal word completes with ILLEGAL_COMMAND and no field. -/
theorem test_illegal_word :
    ((after (step (State.reset.withFetchWord 32 0x11))).map fun t => (t.errCode, t.errN, t.errLen, statusWord t)) =
      some (7, 0, 0, 0x06) := by decide +kernel

/-- R180, R157: HAM_DECODE as the first command after reset: BAD_PARAM. -/
theorem test_first_command :
    ((after (step (State.reset.withFetchWord 32 1))).map fun t => (t.errCode, statusWord t, t.turns)) =
      some (5, 0x06, []) := by decide +kernel

/-! ### The bus -/

/-- R93's example: `WR N, 10` then `RD HAM_R` returns 4. -/
theorem test_ham_r : readReg { idle with n := 10 } .hamR = 4 := by decide

/-- R87's example. -/
theorem test_in_buf_read :
    (busStep (memReadTxn 0x4000#16) (busStep (memWriteTxn 0x4000#16 0xB0000000#32) idle)).response =
      some (.data 0xB0000000#32) := by decide +kernel

/-- R90's soft reset in the BUSY window drops the command. -/
theorem test_soft_reset_drops_command :
    (let t := busStep (memWriteTxn 0x0000#16 2#32) pendingState; (t.busy, t.pending, t.n, t.response)) =
      (false, none, 0, some .ok) := by decide

/-- R58: beyond the implemented size OUT_BUF and CORR_BUF read 0 also in the BUSY window, and no draw is used up. -/
theorem test_busy_read_unimplemented :
    (let t := busStep (memReadTxn 0x8008#16) pendingState; (t.response, t.draws)) = (some (.data 0), 1) ∧
    (let t := busStep (memReadTxn 0xC054#16) pendingState; (t.response, t.draws)) = (some (.data 0), 1) := by decide

/-- R98's example: `WR N, 3` while BUSY: N keeps its value, STATUS bit 5 reads 1. -/
theorem test_busy_write :
    (let t := busStep (memWriteTxn 0x000C#16 3#32) pendingState; (t.n, (statusWord t).getLsbD 5)) = (7, true) := by decide

/-! ### Witnesses: the hypotheses of each obligation are met by concrete states -/

/-- A state between commands that meets `Inv`. -/
theorem inv_idle (ts : List Turn) (hs : List HostMove) : Inv (play idle ts hs) where
  legal := by change small.legal = true; decide
  pendingIffBusy := rfl
  busyNotDone h := nomatch h
  busyFlags h := nomatch h
  errIff _ := rfl
  correctedIff _ := rfl
  validClean h := nomatch h
  errCodeNamed := .inl rfl
  outLenLe := Nat.zero_le _
  corrCountLe := Nat.zero_le _
  remLenLe := Nat.zero_le _
  remFits := by change (0#32).toNat < 2 ^ (0#32).toNat; decide
  errorNoOutput h := absurd rfl h
  noErrorFields _ := ⟨rfl, rfl, rfl, rfl⟩
  memWf := rfl
  memImplemented _ h := nomatch h
  memUnspecified _ _ h := nomatch h
  outTail h := nomatch h
  corrTail h := nomatch h
  inEpochOld := Nat.zero_lt_one
  outEpochOld d h := by cases h; exact Nat.zero_lt_one

/-- A state in the BUSY window that meets `Inv`. -/
theorem inv_pending (ts : List Turn) (hs : List HostMove) : Inv (play pendingState ts hs) where
  legal := by change small.legal = true; decide
  pendingIffBusy := rfl
  busyNotDone _ := rfl
  busyFlags _ := ⟨rfl, rfl, rfl⟩
  errIff h := nomatch h
  correctedIff h := nomatch h
  validClean h := nomatch h
  errCodeNamed := .inl rfl
  outLenLe := Nat.zero_le _
  corrCountLe := Nat.zero_le _
  remLenLe := Nat.zero_le _
  remFits := by change (0#32).toNat < 2 ^ (0#32).toNat; decide
  errorNoOutput h := absurd rfl h
  noErrorFields _ := ⟨rfl, rfl, rfl, rfl⟩
  memWf := by change pendingState.mem.wf = true; decide
  memImplemented := by change ∀ c ∈ pendingState.mem.cells, implemented small c.1 = true; decide
  memUnspecified _ := by change ∀ c ∈ pendingState.mem.cells, c.1 < outBase; decide
  outTail h := nomatch h
  corrTail h := nomatch h
  inEpochOld := Nat.zero_lt_one
  outEpochOld d h := by cases h; exact Nat.zero_lt_one

theorem witness_IllegalWordsCompleteWithCodeSeven :
    (∃ (s : State) (ts : List Turn), s.params.legal = true ∧ s.busy = true ∧ s.pending = some 0x00000011#32 ∧ s.turns = Turn.engine :: ts) ∧
      IllegalWord 0x00000011#32 ∧ IllegalWord 0x00000000#32 ∧ IllegalWord 0x00000006#32 ∧ IllegalWord 0xFFFFFFFF#32 :=
  ⟨⟨idle.withFetchWord 32 0x11, [], by decide, rfl, by decide, rfl⟩, .inl (by decide), .inr (.inl (by decide)),
    .inr (.inr (by decide)), .inl (by decide)⟩

theorem witness_AddressMapIsExact :
    targetOf 0x004C#16 = .reserved ∧ targetOf 0x3FFC#16 = .reserved ∧ targetOf 0x4000#16 = .inBuf 0 ∧
      targetOf 0x7FFC#16 = .inBuf 4095 ∧ targetOf 0x8000#16 = .outBuf 0 ∧ targetOf 0xFFFC#16 = .corrBuf 4095 ∧
      targetOf 0x0048#16 = .reg .id := by decide

theorem witness_EngineStepRunsTheDecodedCommand :
    (let s := play pendingState [.engine] []; s.turns = .engine :: [] ∧ s.busy = true ∧ s.pending = some 1 ∧ decode 1 = .ok .hamDecode) ∧
    (let s := play pendingState [] [.wait]; s.turns = [] ∧ hostWaits s = true ∧ s.busy = true ∧ s.pending = some 1) ∧
    (let s := play idle [.engine] []; s.turns = .engine :: [] ∧ s.busy = false) := by decide

theorem witness_HostStepIsOneTransaction :
    (let s := play idle [.host] [rdMove 4]; s.turns = .host :: [] ∧ s.host = .bus (memReadTxn 4) :: []) ∧
    (let s := play idle [] [rdMove 4]; s.turns = [] ∧ s.host = .bus (memReadTxn 4) :: []) := by decide

theorem witness_NothingStopsTheBlock :
    idle.pending.isSome = idle.busy ∧ pendingState.pending.isSome = pendingState.busy := by decide

theorem witness_EveryStepKeepsTheInvariant :
    (∃ t, Inv (play idle [] [wrMove 8 1]) ∧ step (play idle [] [wrMove 8 1]) = .next t) ∧
    (∃ t, Inv (play pendingState [.host] []) ∧ step (play pendingState [.host] []) = .next t) :=
  ⟨⟨_, inv_idle _ _, rfl⟩, ⟨_, inv_pending _ _, rfl⟩⟩

theorem witness_AcceptedCommandCompletesOnItsOperands :
    ∃ s : State, Inv s ∧ s.busy = true ∧ .rst ∉ s.turns ∧ (∀ m ∈ s.host, isSoftReset m = false) ∧ 0 < s.host.length :=
  ⟨play pendingState [.host, .host] [rdMove 4, wrMove 0x000C#16 3], inv_pending _ _, rfl, by decide, by decide, by decide⟩

theorem witness_BusyWindowKeepsCommandAndBuffers :
    ∃ s t : State, s.busy = true ∧ step s = .next t ∧ t.busy = true ∧ t.busyViol ≠ s.busyViol :=
  ⟨play pendingState [.host] [wrMove 0x000C#16 3], _, rfl, rfl, rfl, by decide⟩

theorem witness_WaitEndsAtTheFirstIdleStatus :
    (let s := play pendingState [.host] [.wait]; s.turns = .host :: [] ∧ s.host = .wait :: [] ∧ s.busy = true) ∧
    (let s := play idle [.host] [.wait]; s.turns = .host :: [] ∧ s.host = .wait :: [] ∧ s.busy = false) := by decide

theorem witness_BusErrorChangesNothing :
    (∃ (s : State) (ts : List Turn) (rest : List HostMove) (t : Txn), s.turns = Turn.host :: ts ∧ s.host = .bus t :: rest ∧ t.size ≠ 4 ∧ t.addr.toNat % 4 = 0) ∧
    (∃ (s : State) (ts : List Turn) (rest : List HostMove) (t : Txn), s.turns = Turn.host :: ts ∧ s.host = .bus t :: rest ∧ t.size = 4 ∧ t.addr.toNat % 4 ≠ 0) ∧
    (∃ (s : State) (ts : List Turn) (rest : List HostMove) (t : Txn), s.turns = Turn.host :: ts ∧ s.host = .bus t :: rest ∧ t.size = 4 ∧ t.addr.toNat % 4 = 0) :=
  ⟨⟨play idle [.host] [.bus { kind := .write, addr := 8, size := 2, wdata := 1 }], _, _, _, rfl, rfl, by decide, by decide⟩,
    ⟨play idle [.host] [.bus { kind := .read, addr := 0x4002, size := 4, wdata := 0 }], _, _, _, rfl, rfl, by decide,
      by decide⟩,
    ⟨play idle [.host] [rdMove 0xFFFC#16], _, _, _, rfl, rfl, by decide, by decide⟩⟩

theorem witness_ReadsChangeNoState : (memReadTxn 0x0014#16).kind = .read := rfl

theorem witness_RegisterReads :
    ((0x004C#16).toNat % 4 = 0 ∧ 0x004C ≤ (0x004C#16).toNat ∧ (0x004C#16).toNat < 0x4000) ∧
    ((0x3FFC#16).toNat % 4 = 0 ∧ 0x004C ≤ (0x3FFC#16).toNat ∧ (0x3FFC#16).toNat < 0x4000) ∧
    ({ idle with n := 0xFFFFFFFF#32 } : State).n = 0xFFFFFFFF#32 ∧ pendingState.n = 7 := by decide

theorem witness_ResultRegisterReadsWhenIdle : doneState.busy = false := rfl

/-- The first and the last result register, OUT_BUF word and CORR_BUF entry of the smallest block. -/
theorem witness_BusyReadsAreFreshDraws :
    pendingState.busy = true ∧ ∀ k ∈ [0x0014, 0x0034, 0x8000, 0x8004, 0xC000, 0xC050], let a := BitVec.ofNat 16 k;
      a.toNat % 4 = 0 ∧ ((0x0014 ≤ a.toNat ∧ a.toNat ≤ 0x0034) ∨
        (0x8000 ≤ a.toNat ∧ a.toNat < 0xC000 ∧ (a.toNat - 0x8000) / 4 < pendingState.params.maxBits / 32) ∨
        (0xC000 ≤ a.toNat ∧ (a.toNat - 0xC000) / 4 < pendingState.params.maxCorr)) := by decide

/-- Word 1 is the last implemented word, entry 20 the last implemented entry of the smallest block. -/
theorem witness_BufferReads :
    (idle.params.legal = true ∧ idle.busy = false ∧ 1 < idle.params.maxBits / 32 ∧ idle.params.maxBits / 32 ≤ 2 ∧
      20 < idle.params.maxCorr ∧ idle.params.maxCorr ≤ 21) ∧
    (pendingState.params.legal = true ∧ pendingState.busy = true ∧ pendingState.params.maxBits / 32 ≤ 2 ∧
      pendingState.params.maxCorr ≤ 21) := by decide

/-- The last bit of a word, either way. -/
theorem witness_BitPackingIsMsbFirst :
    31 < 32 ∧ (readWord (withIn 0 32 1 0) 0x4000).getLsbD 0 = true ∧ inBit (withIn 0 32 1 0) 31 = true := by
  decide +kernel

theorem witness_InBufWrites :
    (idle.params.legal = true ∧ idle.mem.wf = true ∧ idle.busy = false ∧ 1 < idle.params.maxBits / 32) ∧
    (pendingState.params.legal = true ∧ pendingState.mem.wf = true ∧ pendingState.busy = true ∧
      1 < pendingState.params.maxBits / 32) ∧
    (idle.params.maxBits / 32 ≤ 2 ∧ 2 < 4096) := by decide +kernel

theorem witness_CtrlWrites : (1#32).getLsbD 1 = false ∧ (2#32).getLsbD 1 = true := by decide

theorem witness_StatusWrites : (2#32).getLsbD 1 = true := by decide

theorem witness_CmdWriteAccepts : idle.busy = false ∧ pendingState.busy = true := by decide

theorem witness_OperandWritesStoreAnyValue :
    idle.busy = false ∧ idle.params.maxBits < (65#32).toNat ∧ pendingState.busy = true := by decide

theorem witness_GuardedWritesOnlySetBusyViol :
    (pendingState.busy = true ∧ ∀ k ∈ [0x0008, 0x000C, 0x0010, 0x4000, 0x4004], let a := BitVec.ofNat 16 k;
      a.toNat % 4 = 0 ∧ (a.toNat = 0x0008 ∨ a.toNat = 0x000C ∨ a.toNat = 0x0010 ∨
        (0x4000 ≤ a.toNat ∧ a.toNat < 0x8000 ∧ (a.toNat - 0x4000) / 4 < pendingState.params.maxBits / 32))) ∧
    (∃ s t : State, step s = .next t ∧ s.busyViol = true ∧ t.busyViol = false) :=
  ⟨by decide, play doneState [.host] [wrMove 4 0x20], _, rfl, rfl, rfl⟩

theorem witness_WritesWithNoEffect :
    ∀ k ∈ [0x0014, 0x0048, 0x004C, 0x3FFC, 0x4008, 0x7FFC, 0x8000, 0xFFFC], let a := BitVec.ofNat 16 k;
      a.toNat % 4 = 0 ∧ ((0x0014 ≤ a.toNat ∧ a.toNat ≤ 0x0048) ∨ (0x004C ≤ a.toNat ∧ a.toNat < 0x4000) ∨
        0x8000 ≤ a.toNat ∨
        (0x4000 ≤ a.toNat ∧ a.toNat < 0x8000 ∧ idle.params.maxBits / 32 ≤ (a.toNat - 0x4000) / 4)) := by decide

/-- HAM_DECODE accepted, with CTRL.IE as given. -/
def pendingIe (ie : Bool) : State := { pendingState with ctrlIe := ie }

/-- The completion of the accepted command. -/
theorem step_pending (ie : Bool) : step (play (pendingIe ie) [.engine] []) =
    .next (complete (resultOfWord 1 (play (pendingIe ie) [] [])) (play (pendingIe ie) [] [])) :=
  engineStep_eq_complete (s := play (pendingIe ie) [] []) (w := 1) rfl

theorem completes_pendingIe (ie : Bool) : Completes (play (pendingIe ie) [.engine] []) := ⟨rfl, .inl ⟨_, rfl⟩⟩

theorem witness_BusyFollowsTheCommand :
    (∃ s t : State, step s = .next t ∧ s.busy = false ∧ t.busy = true) ∧
    (∃ s t : State, step s = .next t ∧ s.busy = true ∧ t.busy = false ∧ Completes s) ∧
    (∃ s t : State, step s = .next t ∧ s.busy = true ∧ t.busy = false ∧ Resets s) :=
  ⟨⟨play idle [.host] [wrMove 8 1], _, rfl, rfl, rfl⟩, ⟨play (pendingIe false) [.engine] [], _, step_pending false, rfl, complete_busy _ _, completes_pendingIe false⟩,
    ⟨play pendingState [.rst] [], _, rfl, rfl, rfl, .inl ⟨_, rfl⟩⟩⟩

theorem witness_DoneFollowsCompletions :
    (∃ s t : State, step s = .next t ∧ Completes s ∧ s.done = false ∧ t.done = true) ∧
    (∃ (s t : State) (w : Word), step s = .next t ∧ s.done = true ∧ t.done = false ∧ s.busy = false ∧ Writes s (.reg .cmd) w) ∧
    (∃ (s t : State) (v : Word), step s = .next t ∧ s.done = true ∧ t.done = false ∧ Writes s (.reg .status) v ∧ v.getLsbD 1 = true) ∧
    (∃ s t : State, step s = .next t ∧ s.done = true ∧ t.done = false ∧ SoftResets s) :=
  ⟨⟨play (pendingIe false) [.engine] [], _, step_pending false, completes_pendingIe false, rfl, complete_done _ _⟩,
    ⟨play doneState [.host] [wrMove 8 1], _, 1, rfl, rfl, rfl, rfl, _, rfl, rfl, rfl, rfl, rfl⟩,
    ⟨play doneState [.host] [wrMove 4 2], _, 2, rfl, rfl, rfl, ⟨_, rfl, rfl, rfl, rfl, rfl⟩, rfl⟩,
    ⟨play doneState [.host] [wrMove 0 2], _, rfl, rfl, rfl, 2, ⟨_, rfl, rfl, rfl, rfl, rfl⟩, rfl⟩⟩

theorem witness_IrqRisesOnlyByCompletionOrEnable :
    (∃ s t : State, step s = .next t ∧ irq s = false ∧ irq t = true ∧ Completes s) ∧
    (∃ s t : State, step s = .next t ∧ irq s = false ∧ irq t = true ∧ ¬ s.busy = true) :=
  ⟨⟨play (pendingIe true) [.engine] [], _, step_pending true, rfl, by simp [irq, play, pendingIe], completes_pendingIe true⟩,
    ⟨play { doneState with ctrlIe := false } [.host] [wrMove 0 1], _, rfl, rfl, rfl, by decide⟩⟩

theorem witness_OperandsChangeOnlyByTheHost :
    (∃ s t : State, s.params.legal = true ∧ s.mem.wf = true ∧ step s = .next t ∧ t.n ≠ s.n) ∧
    (∃ s t : State, s.params.legal = true ∧ s.mem.wf = true ∧ step s = .next t ∧ t.inLen ≠ s.inLen) ∧
    (∃ s t : State, s.params.legal = true ∧ s.mem.wf = true ∧ step s = .next t ∧ readByte t 0x4007 ≠ readByte s 0x4007) :=
  ⟨⟨play idle [.host] [wrMove 0x0C 7], _, by decide, by decide, rfl, by decide⟩,
    ⟨play pendingState [.rst] [], _, by decide, by decide, rfl, by decide⟩,
    ⟨play (withIn 0 0 0 0) [.host] [wrMove 0x4004 0xFF000000], _, by decide, by decide, rfl, by decide +kernel⟩⟩

theorem witness_ResultsStayUntilTheNextCompletion :
    ∃ s t : State, s.params.legal = true ∧ s.mem.wf = true ∧ step s = .next t ∧ ¬ Completes s ∧ ¬ Resets s ∧
      t.busy ≠ s.busy := by
  refine ⟨play idle [.host] [wrMove 8 1], _, by decide, by decide, rfl, fun h => ?_, fun h => ?_, by decide⟩
  · exact absurd h.1 (by decide)
  · rcases h with ⟨ts, h⟩ | ⟨v, ⟨x, hx, _, _, ht, _⟩, _⟩
    · cases h
    · cases hx; exact absurd ht (by decide)

theorem witness_OnlyNamedErrorCodesAreWritten :
    ∃ s t : State, step s = .next t ∧ t.errCode ≠ s.errCode :=
  ⟨idle.withFetchWord 32 0, _, rfl, by decide +kernel⟩

theorem witness_PowerOnResetClearsEverything :
    (play pendingState [.rst] []).turns = .rst :: [] ∧ implemented pendingState.params 0x4000 = true ∧
      implemented pendingState.params 0x8007 = true ∧ implemented pendingState.params 0xC053 = true := by decide

theorem witness_SoftResetKeepsInBuf :
    pendingState.params.legal = true ∧ (2#32).getLsbD 1 = true ∧ 0x7FFF < 0x8000 ∧
      implemented pendingState.params 0x8000 = true := by decide

theorem witness_CommandsIssuedAtOnceAfterReset :
    State.reset.params.legal = true ∧ State.reset.n = 0 ∧ State.reset.inLen = 0 := by decide

theorem witness_ResultsDependOnOperandsOnly :
    (let s := withIn 7 4 0xB0000000 0
     let u := withIn 7 4 0xBFFFFFFF 1
     s.params.legal = true ∧ u.params.maxBits = s.params.maxBits ∧ u.n = s.n ∧ u.inLen = s.inLen ∧
      (∀ j, j < s.inLen.toNat → inBit u j = inBit s j) ∧ u.mem ≠ s.mem ∧
      (after (exec .hamEncode s)).isSome = true ∧ (after (exec .hamEncode u)).isSome = true) ∧
    (let s := withIn 7 4 0xB0000000 0
     let u := withIn 3 4 0xB0000000 0
     u.n ≠ s.n ∧ u.inLen = s.inLen ∧ (∀ j, j < s.inLen.toNat → inBit u j = inBit s j) ∧
      (after (exec .crcAppend s)).isSome = true ∧ (after (exec .crcAppend u)).isSome = true) := by decide +kernel

theorem witness_ParityCountIsLeast : 7 + 1 ≤ 2 ^ 3 ∧ 0xFFFFFFFF < 2 ^ 32 ∧ 1 ≤ 1 ∧ 3 ≤ 3 ∧ 3 ≤ 4 := by decide

theorem witness_ParityPositionsArePowersOfTwo : 1 ≤ 1 ∧ 4 ≤ 7 ∧ isParityPos 4 = true ∧ isParityPos 7 = false := by decide

/-- The block "0001000": one set bit, at position 4. -/
theorem witness_SyndromeIsXorOfSetPositions :
    [false, false, false, true, false, false, false].length = 7 ∧ 1 ≤ 4 ∧ 4 ≤ 7 ∧
      ∀ j < 9, bitAt [false, false, false, true, false, false, false] j = decide (j = 4) := by decide

/-- N = 10: "0010011101" has syndrome 0, with position 10 flipped syndrome 10, and "0010000100" syndrome 11 (V-L3). -/
theorem witness_BlockDecodePolicy :
    syndrome 10 [false, false, true, false, false, true, true, true, false, true] = 0 ∧
    syndrome 10 [false, false, true, false, false, true, true, true, false, false] = 10 ∧
    syndrome 10 [false, false, true, false, false, false, false, true, false, false] = 11 := by decide

theorem witness_ExtractionTakesDataPositions :
    [false, true, true, false, false, true, true].length = 7 ∧ 4 ≤ 7 ∧ isParityPos 4 = true := by decide

theorem witness_EncodedBlockIsACodeword : [true, false, true, true].length = dataLen 7 ∧ 2 < parityBits 7 := by decide

/-- N = 7, positions 1 and 2: 3 is in range (V-H4); N = 10, positions 3 and 8: 11 is not. -/
theorem witness_DoubleErrorsMiscorrectOrFail :
    (3 ≤ 7 ∧ [true, false, true, true].length = dataLen 7 ∧ 1 ^^^ 2 ≤ 7) ∧
    (3 ≤ 10 ∧ [true, false, true, true, false, true].length = dataLen 10 ∧ 10 < 3 ^^^ 8) := by decide

/-- N = 10: the block with bits 7 and 8 set; N = 7 never fails. -/
theorem witness_UncorrectableExactlyOffPerfectLengths :
    3 ≤ 3 ∧ 10 < 2 ^ parityBits 10 - 1 ∧ ¬ 7 < 2 ^ parityBits 7 - 1 ∧
      ∀ k < 12, bitAt [false, false, false, false, false, false, true, true, false, false] k =
        decide (k = 2 ^ (parityBits 10 - 1) ∨ k = 2 ^ (parityBits 10 - 1) - 1) := by decide

/-- V-H4: two correctable blocks, and the empty stream. -/
theorem witness_HamDecodeCompletes :
    (let s := withIn 7 14 0x26040000 0
     s.params.legal = true ∧ s.inLen.toNat ≤ s.params.maxBits ∧ 3 ≤ s.n.toNat ∧ s.inLen.toNat % s.n.toNat = 0 ∧
      ∀ b, b < s.inLen.toNat / s.n.toNat →
        syndrome s.n.toNat (chunk (inputBits s s.inLen.toNat) s.n.toNat b) ≤ s.n.toNat) ∧
    (let s := withIn 1000 0 0 0
     s.params.legal = true ∧ s.inLen.toNat ≤ s.params.maxBits ∧ 3 ≤ s.n.toNat ∧ s.inLen.toNat % s.n.toNat = 0 ∧
      s.inLen.toNat / s.n.toNat = 0) := by decide +kernel

theorem witness_HamDecodeErrors :
    (let s := withIn 2 65 0 0; s.params.legal = true ∧ s.params.maxBits < s.inLen.toNat) ∧
    (let s := withIn 2 64 0 0; s.inLen.toNat ≤ s.params.maxBits ∧ s.n.toNat < 3) ∧
    (let s := withIn 7 8 0 0; s.inLen.toNat ≤ s.params.maxBits ∧ 3 ≤ s.n.toNat ∧ s.inLen.toNat % s.n.toNat ≠ 0) ∧
    (let s := withIn 10 20 0x07484000 0
     s.inLen.toNat ≤ s.params.maxBits ∧ 3 ≤ s.n.toNat ∧ s.inLen.toNat % s.n.toNat = 0 ∧ 1 < s.inLen.toNat / s.n.toNat ∧
      s.n.toNat < syndrome s.n.toNat (chunk (inputBits s s.inLen.toNat) s.n.toNat 1) ∧
      ∀ c, c < 1 → syndrome s.n.toNat (chunk (inputBits s s.inLen.toNat) s.n.toNat c) ≤ s.n.toNat) := by decide +kernel

/-- N = 3 with 21 bits: 63 output bits, the most the smallest block can hold. -/
theorem witness_HamEncodeCompletes :
    let s := withIn 3 21 0xA5A5A5A5 0
    s.params.legal = true ∧ s.inLen.toNat ≤ s.params.maxBits ∧ 3 ≤ s.n.toNat ∧ s.inLen.toNat % dataLen s.n.toNat = 0 ∧
      s.inLen.toNat / dataLen s.n.toNat * s.n.toNat ≤ s.params.maxBits := by decide

theorem witness_HamEncodeErrors :
    (let s := withIn 2 65 0 0; s.params.legal = true ∧ s.params.maxBits < s.inLen.toNat) ∧
    (let s := withIn 2 64 0 0; s.inLen.toNat ≤ s.params.maxBits ∧ s.n.toNat < 3) ∧
    (let s := withIn 7 5 0 0; s.inLen.toNat ≤ s.params.maxBits ∧ 3 ≤ s.n.toNat ∧ s.inLen.toNat % dataLen s.n.toNat ≠ 0) ∧
    (let s := withIn 3 22 0 0
     s.inLen.toNat ≤ s.params.maxBits ∧ 3 ≤ s.n.toNat ∧ s.inLen.toNat % dataLen s.n.toNat = 0 ∧
      s.params.maxBits < s.inLen.toNat / dataLen s.n.toNat * s.n.toNat) := by decide

/-- Two blocks of N = 7 from "10110000", position 2 of block 0 and position 7 of block 1 flipped (V-H4). -/
theorem witness_HammingRoundTripCorrectsOneFlipPerBlock :
    let s := withIn 7 8 0xB0000000 0
    let t := ran .hamEncode s
    let u := withIn 7 14 0x26040000 0
    let flips := [(0, 2), (1, 7)]
    s.params.legal = true ∧ s.inLen.toNat ≤ s.params.maxBits ∧ 3 ≤ s.n.toNat ∧ s.inLen.toNat % dataLen s.n.toNat = 0 ∧
      s.inLen.toNat / dataLen s.n.toNat * s.n.toNat ≤ s.params.maxBits ∧ (flips.map Prod.fst).Pairwise (· < ·) ∧
      (∀ f ∈ flips, f.1 < s.inLen.toNat / dataLen s.n.toNat ∧ 1 ≤ f.2 ∧ f.2 ≤ s.n.toNat) ∧
      u.params = s.params ∧ u.n = s.n ∧ u.inLen = t.outLen ∧
      ∀ j, j < u.inLen.toNat → inBit u j = (outBit t j ^^ decide ((j / s.n.toNat, j % s.n.toNat + 1) ∈ flips)) := by
  decide +kernel

theorem witness_CrcVerifyCompletes :
    (let s := withIn 0 33 0x82608EDB 0x80000000
     s.params.legal = true ∧ 33 ≤ s.inLen.toNat ∧ s.inLen.toNat ≤ s.params.maxBits) ∧
    (let s := withIn 0 64 0 1
     s.params.legal = true ∧ 33 ≤ s.inLen.toNat ∧ s.inLen.toNat ≤ s.params.maxBits) := by decide

theorem witness_CrcAppendCompletes :
    let s := withIn 0 32 0x31323334 0
    s.params.legal = true ∧ s.inLen.toNat + 32 ≤ s.params.maxBits := by decide

theorem witness_CrcRemainderCompletes :
    let s := withIn 0 64 0 1
    s.params.legal = true ∧ s.inLen.toNat ≤ s.params.maxBits := by decide

theorem witness_CrcErrors :
    (let s := withIn 0 65 0 0; s.params.legal = true ∧ s.params.maxBits < s.inLen.toNat) ∧
    (let s := withIn 0 32 0 0; s.params.legal = true ∧ s.inLen.toNat < 33) ∧
    (let s := withIn 0 33 0 0; s.params.legal = true ∧ s.params.maxBits < s.inLen.toNat + 32) := by decide

theorem witness_CrcMismatchIsNoError :
    let s := withIn 0 33 0x82608EDA 0x80000000
    s.params.legal = true ∧ 33 ≤ s.inLen.toNat ∧ s.inLen.toNat ≤ s.params.maxBits ∧
      checkRemainder (mod2Divide (inputBits s s.inLen.toNat) poly) = false := by decide +kernel

/-- "1" appended and verified; the empty message; POLY with its first and its last bit flipped. -/
theorem witness_CrcRoundTripAndSingleBitDetection :
    (let s := withIn 0 1 0x80000000 0
     let t := ran .crcAppend s
     let u := withIn 0 33 0x82608EDB 0x80000000
     s.params.legal = true ∧ s.inLen.toNat + 32 ≤ s.params.maxBits ∧ u.params = s.params ∧ u.inLen = t.outLen ∧
      (∀ j, j < u.inLen.toNat → inBit u j = outBit t j) ∧ 1 ≤ s.inLen.toNat) ∧
    (let s := withIn 0 0 0 0
     let t := ran .crcAppend s
     let u := withIn 0 32 0 0
     u.inLen = t.outLen ∧ (∀ j, j < u.inLen.toNat → inBit u j = outBit t j) ∧ s.inLen.toNat = 0) ∧
    (let s := withIn 0 33 0x82608EDB 0x80000000
     let u := withIn 0 33 0x02608EDB 0x80000000
     let v := withIn 0 33 0x82608EDB 0x00000000
     (ran .crcVerify s).valid = true ∧ u.params = s.params ∧ u.inLen = s.inLen ∧ v.inLen = s.inLen ∧
      (∀ k, k < s.inLen.toNat → inBit u k = (inBit s k ^^ decide (k = 0))) ∧
      (∀ k, k < s.inLen.toNat → inBit v k = (inBit s k ^^ decide (k = 32))) ∧ s.inLen.toNat - 1 - 32 < 32) := by
  decide +kernel

theorem witness_LeadingZerosAreInvisible :
    (let s := withIn 0 33 0x82608EDB 0x80000000
     let u := withIn 0 34 0x4130476D 0xC0000000
     s.params.legal = true ∧ (ran .crcVerify s).valid = true ∧ u.params = s.params ∧
      s.inLen.toNat + 1 ≤ s.params.maxBits ∧ u.inLen.toNat = s.inLen.toNat + 1 ∧ inBit u 0 = false ∧
      (∀ j, j < s.inLen.toNat → inBit u (j + 1) = inBit s j)) ∧
    (let s := withIn 0 33 0 0
     s.params.legal = true ∧ 33 ≤ s.inLen.toNat ∧ s.inLen.toNat ≤ s.params.maxBits ∧
      (∀ j, j < s.inLen.toNat → inBit s j = false)) := by decide +kernel

end Sys2Proof.Tests
end

section
/-! SUPPORT. The proofs of the state family (10_state.md): the address map, what a step does to the block said as a relation,
the life of BUSY and DONE, and the invariant. -/

namespace Sys2Proof.Machine

/-! ### The address map (10_state.md R20, 20_memory.md R50) -/

theorem targetAddr_reg (r : Reg) : targetAddr (.reg r) = regAddr r := rfl

/-- The address of word `w` of a window, as a number. -/
theorem toNat_windowAddr {base w : Nat} (hb : base ≤ 0xC000) (hw : w < 4096) :
    (BitVec.ofNat 16 (base + 4 * w)).toNat = base + 4 * w := by
  rw [BitVec.toNat_ofNat, Nat.mod_eq_of_lt (by omega)]

/-- An aligned address of a window is the address of the word it lies in. -/
theorem windowAddr_of_aligned {base : Nat} {a : Addr} (hb : base % 4 = 0) (ha : a.toNat % 4 = 0) (h : base ≤ a.toNat) :
    BitVec.ofNat 16 (base + 4 * ((a.toNat - base) / 4)) = a := by
  have : base + 4 * ((a.toNat - base) / 4) = a.toNat := by omega
  rw [this, BitVec.ofNat_toNat, BitVec.setWidth_eq]

theorem targetOf_targetAddr_inBuf {w : Nat} (hw : w < 4096) : targetOf (targetAddr (.inBuf w)) = .inBuf w := by
  have ha : (targetAddr (.inBuf w)).toNat = 0x4000 + 4 * w := toNat_windowAddr (by decide) hw
  rw [targetOf_inBuf (by omega) (by omega), ha]
  congr 1; omega

theorem targetOf_targetAddr_outBuf {w : Nat} (hw : w < 4096) : targetOf (targetAddr (.outBuf w)) = .outBuf w := by
  have ha : (targetAddr (.outBuf w)).toNat = 0x8000 + 4 * w := toNat_windowAddr (by decide) hw
  rw [targetOf_outBuf (by omega) (by omega), ha]
  congr 1; omega

theorem targetOf_targetAddr_corrBuf {e : Nat} (he : e < 4096) : targetOf (targetAddr (.corrBuf e)) = .corrBuf e := by
  have ha : (targetAddr (.corrBuf e)).toNat = 0xC000 + 4 * e := toNat_windowAddr (by decide) he
  rw [targetOf_corrBuf (by omega), ha]
  congr 1; omega

/-- Every aligned address outside the reserved range is its target's address. -/
theorem targetAddr_targetOf {a : Addr} (ha : a.toNat % 4 = 0) (hr : a.toNat < 0x4C ∨ 0x4000 ≤ a.toNat) :
    targetAddr (targetOf a) = a := by
  rcases hr with hr | h1
  · obtain ⟨r, rfl⟩ := exists_reg hr ha
    rw [targetOf_reg, targetAddr_reg]
  by_cases h2 : a.toNat < 0x8000
  · rw [targetOf_inBuf h1 h2]
    exact windowAddr_of_aligned (base := 0x4000) (by decide) ha h1
  by_cases h3 : a.toNat < 0xC000
  · rw [targetOf_outBuf (by omega) h3]
    exact windowAddr_of_aligned (base := 0x8000) (by decide) ha (by omega)
  · rw [targetOf_corrBuf (by omega)]
    exact windowAddr_of_aligned (base := 0xC000) (by decide) ha (by omega)

/-! ### What a step does to the block -/

/-- `t` holds the block and the parameters of `u`, and has made no fewer draws; script, schedule and response may differ. -/
structure SameMachine (u t : State) : Prop where
  block : t.toBlock = u.toBlock
  params : t.params = u.params
  draws : u.draws ≤ t.draws

theorem SameMachine.busy {u t : State} (h : SameMachine u t) : t.busy = u.busy := congrArg Block.busy h.block

theorem SameMachine.done {u t : State} (h : SameMachine u t) : t.done = u.done := congrArg Block.done h.block

theorem SameMachine.pending {u t : State} (h : SameMachine u t) : t.pending = u.pending := congrArg Block.pending h.block

/-- The effects a step can have, each with what brings it about (10_state.md R16, 40_host_access.md R90 to R98): the second
state is the first after the effect, before the step's changes to script, schedule and response. -/
inductive StepEffect (s : State) : State → Prop
  | powerOn {ts : List Turn} (ht : s.turns = .rst :: ts) : StepEffect s (powerOnReset s)
  | completion {w : Word} (hc : Completes s) (hw : s.pending = some w) : StepEffect s (complete (resultOfWord w s) s)
  | unchanged : StepEffect s s
  | violation (hb : s.busy = true) : StepEffect s (setBusyViol s)
  | soft {v : Word} (hw : Writes s (.reg .ctrl) v) (hv : v.getLsbD 1 = true) : StepEffect s (softReset s)
  | enable {v : Word} (hw : Writes s (.reg .ctrl) v) : StepEffect s { s with ctrlIe := v.getLsbD 0 }
  | clear {v : Word} (hw : Writes s (.reg .status) v) : StepEffect s (clearFlags v s)
  | accept {v : Word} (hb : s.busy = false) (hw : Writes s (.reg .cmd) v) : StepEffect s (acceptCommand v s)
  | setN {v : Word} (hb : s.busy = false) (hw : Writes s (.reg .n) v) : StepEffect s { s with n := v }
  | setInLen {v : Word} (hb : s.busy = false) (hw : Writes s (.reg .inLen) v) : StepEffect s { s with inLen := v }
  | storeIn {w : Nat} {v : Word} (hb : s.busy = false) (hw : Writes s (.inBuf w) v) (hi : w < s.params.maxBits / 32) :
      StepEffect s { s with mem := s.mem.putWord (inBase + 4 * w) v }

/-- A host transaction has one of the effects; script and schedule do not matter to it. -/
theorem busStep_effect {s : State} {x : Txn} (hx : nextTxn s = some x) (ts : List Turn) (rest : List HostMove) :
    ∃ u, StepEffect s u ∧ SameMachine u (busStep x { s with turns := ts, host := rest }) := by
  rcases busStep_cases x { s with turns := ts, host := rest } with
    ⟨hb, hd⟩ | ⟨hb, -, -, -, he⟩ | ⟨hwf, hk, hw⟩
  · exact ⟨s, .unchanged, hb, (busStep_environment x _).1, hd⟩
  · rw [he]; exact ⟨_, .violation hb, rfl, rfl, le_rfl⟩
  have writes {tg : Target} (ht : targetOf x.addr = tg) : Writes s tg x.wdata := ⟨x, hx, hwf, hk, ht, rfl⟩
  rcases hw with ⟨ht, he⟩ | ⟨ht, he⟩ | ⟨hb, ht, he⟩ | ⟨hb, ht, he⟩ | ⟨hb, ht, he⟩ | ⟨hb, w, ht, hi, he⟩ <;> rw [he]
  · cases hv : x.wdata.getLsbD 1 with
    | true =>
      rw [writeCtrl, if_pos hv]
      exact ⟨_, .soft (writes ht) hv, rfl, rfl, le_rfl⟩
    | false =>
      rw [writeCtrl, if_neg (Bool.eq_false_iff.mp hv)]
      exact ⟨_, .enable (writes ht), rfl, rfl, le_rfl⟩
  · exact ⟨_, .clear (writes ht), rfl, rfl, le_rfl⟩
  · exact ⟨_, .accept hb (writes ht), rfl, rfl, le_rfl⟩
  · exact ⟨_, .setN hb (writes ht), rfl, rfl, le_rfl⟩
  · exact ⟨_, .setInLen hb (writes ht), rfl, rfl, le_rfl⟩
  · exact ⟨_, .storeIn hb (writes ht) hi, rfl, rfl, le_rfl⟩

/-- Every step has one of the effects. -/
theorem step_effect {s t : State} (h : step s = .next t) : ∃ u, StepEffect s u ∧ SameMachine u t := by
  rcases step_cases h with ⟨ts, ht, rfl⟩ | ⟨hc, w, hw, rfl⟩ | ⟨x, rest, hx, rfl⟩ | ⟨-, -, -, hb, hp, hd, -⟩
  · exact ⟨_, .powerOn ht, rfl, rfl, le_rfl⟩
  · exact ⟨_, .completion hc hw, rfl, rfl, le_rfl⟩
  · exact busStep_effect hx _ _
  · exact ⟨s, .unchanged, hb, hp, hd.ge⟩

/-! ### What a completion, a write and a reset give when they come next -/

theorem nextTxn_of_completes {s : State} (hc : Completes s) : nextTxn s = none := by
  obtain ⟨-, ⟨ts, ht⟩ | ⟨ht, hw⟩⟩ := hc
  · simp [nextTxn, ht]
  · unfold hostWaits at hw
    split at hw <;> simp_all [nextTxn]

theorem step_of_completes {s t : State} (hc : Completes s) (h : step s = .next t) :
    ∃ w, s.pending = some w ∧ t = { complete (resultOfWord w s) s with turns := s.turns.tail } := by
  rcases step_cases h with ⟨ts, ht, -⟩ | ⟨-, hw⟩ | ⟨x, rest, hx, -⟩ | ⟨-, hc', -⟩
  · obtain ⟨-, ⟨ts', ht'⟩ | ⟨ht', -⟩⟩ := hc <;> simp [ht] at ht'
  · exact hw
  · simp [nextTxn_of_completes hc] at hx
  · exact absurd hc hc'

theorem step_of_writes {s t : State} {tg : Target} {v : Word} (hw : Writes s tg v) (h : step s = .next t) :
    ∃ rest, t = busWrite tg v { s with turns := s.turns.tail, host := rest } := by
  obtain ⟨x, hx, hwf, hk, rfl, rfl⟩ := hw
  rcases step_cases h with ⟨ts, ht, -⟩ | ⟨hc, -⟩ | ⟨y, rest, hy, rfl⟩ | ⟨hn, -⟩
  · simp [nextTxn, ht] at hx
  · simp [nextTxn_of_completes hc] at hx
  · obtain rfl : x = y := by simpa [hx] using hy
    exact ⟨rest, by simp [busStep, hwf, hk]⟩
  · simp [hn] at hx

theorem step_of_rst {s t : State} {ts : List Turn} (ht : s.turns = .rst :: ts) (h : step s = .next t) :
    t = powerOnReset { s with turns := ts } := by
  simpa [step, nextStep, ht, eq_comm] using h

theorem busy_of_step_completes {s t : State} (hc : Completes s) (h : step s = .next t) : t.busy = false := by
  obtain ⟨w, -, rfl⟩ := step_of_completes hc h
  exact complete_busy _ s

theorem done_of_step_completes {s t : State} (hc : Completes s) (h : step s = .next t) : t.done = true := by
  obtain ⟨w, -, rfl⟩ := step_of_completes hc h
  exact complete_done _ s

theorem done_of_step_accepts {s t : State} {w : Word} (hb : s.busy = false) (hw : Writes s (.reg .cmd) w)
    (h : step s = .next t) : t.done = false := by
  obtain ⟨rest, rfl⟩ := step_of_writes hw h
  simp [busWrite, writeTarget, writeReg, guarded_idle, hb]

theorem done_of_step_clears {s t : State} {v : Word} (hw : Writes s (.reg .status) v) (hv : v.getLsbD 1 = true)
    (h : step s = .next t) : t.done = false := by
  obtain ⟨rest, rfl⟩ := step_of_writes hw h
  simp [busWrite, writeTarget, writeReg, hv]

theorem done_of_step_resets {s t : State} (hr : Resets s) (h : step s = .next t) : t.done = false := by
  rcases hr with ⟨ts, ht⟩ | ⟨v, hw, hv⟩
  · rw [step_of_rst ht h, powerOnReset_done]
  · obtain ⟨rest, rfl⟩ := step_of_writes hw h
    simp [busWrite, writeTarget, writeReg, writeCtrl, hv]

/-! ### The effects and the flags -/

/-- R24: what can set BUSY. -/
theorem StepEffect.busy_rises {s u : State} (he : StepEffect s u) (h0 : s.busy = false) (h1 : u.busy = true) :
    ∃ w, Writes s (.reg .cmd) w ∧ u.pending = some w := by
  cases he with
  | accept _ hw => exact ⟨_, hw, rfl⟩
  | _ => simp [h0] at h1

/-- R24: what can clear BUSY. -/
theorem StepEffect.busy_falls {s u : State} (he : StepEffect s u) (h1 : s.busy = true) (h0 : u.busy = false) :
    Completes s ∨ Resets s := by
  cases he with
  | powerOn ht => exact .inr (.inl ⟨_, ht⟩)
  | completion hc => exact .inl hc
  | soft hw hv => exact .inr (.inr ⟨_, hw, hv⟩)
  | _ => simp [h1] at h0

/-- R25: what can set DONE. -/
theorem StepEffect.done_rises {s u : State} (he : StepEffect s u) (h0 : s.done = false) (h1 : u.done = true) :
    Completes s := by
  cases he with
  | completion hc => exact hc
  | _ => simp [h0] at h1

/-- R25: what can clear DONE. -/
theorem StepEffect.done_falls {s u : State} (he : StepEffect s u) (h1 : s.done = true) (h0 : u.done = false) :
    (∃ w, s.busy = false ∧ Writes s (.reg .cmd) w) ∨ (∃ v, Writes s (.reg .status) v ∧ v.getLsbD 1 = true) ∨
      Resets s := by
  cases he with
  | powerOn ht => exact .inr (.inr (.inl ⟨_, ht⟩))
  | soft hw hv => exact .inr (.inr (.inr ⟨_, hw, hv⟩))
  | accept hb hw => exact .inl ⟨_, hb, hw⟩
  | clear hw => exact .inr (.inl ⟨_, hw, by simpa [h1] using h0⟩)
  | _ => simp [h1] at h0

/-- R45, R98: an effect that leaves a busy block busy changes no field but CTRL.IE, DONE and BUSY_VIOL. -/
theorem StepEffect.busy_frame {s u : State} (he : StepEffect s u) (hs : s.busy = true) (hu : u.busy = true) :
    u.toBlock = { s.toBlock with ctrlIe := u.ctrlIe, done := u.done, busyViol := u.busyViol } := by
  cases he with
  | unchanged | violation | enable | clear => rfl
  | powerOn | completion | soft => simp at hu
  | accept hb | setN hb | setInLen hb | storeIn hb => simp [hs] at hb

/-! ### The invariant and the effects -/

/-- The invariant is of block, parameters and draws alone. -/
theorem Inv.of_sameMachine {u t : State} (hi : Inv u) (h : SameMachine u t) : Inv t := by
  obtain ⟨block, params, host, turns, response, draws⟩ := t
  obtain ⟨rfl, rfl, hd⟩ := h
  exact { hi with
    inEpochOld := hi.inEpochOld.trans_le hd
    outEpochOld := fun d he => (hi.outEpochOld d he).trans_le hd }

/-- Both resets: registers cleared, OUT_BUF and CORR_BUF of a fresh draw (R177, R178). -/
theorem inv_clearRegisters {s : State} {m : Memory} (hp : s.params.legal = true) (hwf : m.wf = true)
    (himp : ∀ c ∈ m.cells, implemented s.params c.1 = true) (hin : ∀ c ∈ m.cells, c.1 < outBase)
    (hie : m.inEpoch ≤ s.draws) (hoe : m.outEpoch = some s.draws) :
    Inv { clearRegisters s with mem := m, draws := s.draws + 1 } where
  legal := hp
  pendingIffBusy := rfl
  busyNotDone _ := rfl
  busyFlags _ := ⟨rfl, rfl, rfl⟩
  errIff _ := rfl
  correctedIff _ := rfl
  validClean h := nomatch h
  errCodeNamed := .inl rfl
  outLenLe := Nat.zero_le _
  corrCountLe := Nat.zero_le _
  remLenLe := Nat.zero_le _
  remFits := Nat.one_pos
  errorNoOutput h := absurd rfl h
  noErrorFields _ := ⟨rfl, rfl, rfl, rfl⟩
  memWf := hwf
  memImplemented := himp
  memUnspecified _ := hin
  outTail h := by simp [hoe] at h
  corrTail h := by simp [hoe] at h
  inEpochOld := Nat.lt_succ_of_le hie
  outEpochOld d h := by
    obtain rfl : s.draws = d := by simpa [hoe] using h
    exact Nat.lt_succ_self _

theorem inv_powerOnReset {s : State} (hp : s.params.legal = true) : Inv (powerOnReset s) :=
  inv_clearRegisters hp (Memory.empty_wf _ _) (by simp) (by simp) le_rfl rfl

theorem inv_softReset {s : State} (hi : Inv s) : Inv (softReset s) := by
  refine inv_clearRegisters hi.legal (Memory.dropResults_wf hi.memWf _) (fun c hc => ?_) (fun c hc => ?_)
    hi.inEpochOld.le rfl
  · exact hi.memImplemented c (List.mem_of_mem_filter hc)
  · simpa using List.of_mem_filter hc

/-- The bytes a completion lists are implemented (R56, R57). -/
theorem implemented_of_mem_putResults {p : Config.Params} {m : Memory} {out : Bits} {corr : List (Nat × Nat)}
    (hm : ∀ c ∈ m.cells, implemented p c.1 = true) :
    ∀ c ∈ (m.putResults p out corr).cells, implemented p c.1 = true := by
  intro c hc
  rcases Memory.mem_putResults hc with ⟨hc, -⟩ | ⟨h1, h2, -⟩ | ⟨h1, h2, -⟩
  · exact hm c hc
  · exact implemented_out h1 (by omega)
  · exact implemented_corr h1 h2

/-- R56: OUT_BUF is 0 from the end of the completion's output on. -/
theorem outBit_complete_tail {r : CmdResult} {s : State} (hp : s.params.legal = true) {j : Nat}
    (hl : (bufferOutputs r).1.length ≤ j) (hj : j < s.params.maxBits) : outBit (complete r s) j = false := by
  rw [outBit_complete r s hp hj, List.getD_eq_default _ _ hl]

/-- R57: CORR_BUF is 0 from the end of the completion's report on. -/
theorem corrWord_complete_tail {r : CmdResult} {s : State} (hp : s.params.legal = true) {e : Nat}
    (hl : (bufferOutputs r).2.length ≤ e) (he : e < s.params.maxCorr) : corrWord (complete r s) e = 0 := by
  rw [corrWord_complete r s hp he, List.getD_eq_default _ _ (by simpa using hl)]
  rfl

/-- R96: a completion with outputs that fit. -/
theorem inv_complete_ok {s : State} {o : CmdOutput} (hi : Inv s) (ho : o.Fits s.params) : Inv (complete (.ok o) s) := by
  have hb := Config.Params.maxBits_le hi.legal
  have hc := Config.Params.maxCorr_le hi.legal
  obtain ⟨hout, hcorr, hlen, hrem, hvalid⟩ := ho
  have hout' : (BitVec.ofNat 32 o.out.length).toNat = o.out.length := Nat.mod_eq_of_lt (by omega)
  have hcorr' : (BitVec.ofNat 32 o.corr.length).toNat = o.corr.length := Nat.mod_eq_of_lt (by omega)
  have hlen' : (BitVec.ofNat 32 o.remLen).toNat = o.remLen := Nat.mod_eq_of_lt (by omega)
  exact {
    legal := hi.legal
    pendingIffBusy := rfl
    busyNotDone := nofun
    busyFlags := nofun
    errIff := fun _ => rfl
    correctedIff := fun _ => by simp [hcorr']
    validClean := fun h => ⟨hvalid h, rfl⟩
    errCodeNamed := .inl rfl
    outLenLe := hout'.trans_le hout
    corrCountLe := hcorr'.trans_le hcorr
    remLenLe := hlen'.trans_le hlen
    remFits := by simpa [hlen'] using hrem
    errorNoOutput := fun h => absurd rfl h
    noErrorFields := fun _ => ⟨rfl, rfl, rfl, rfl⟩
    memWf := Memory.putResults_wf hi.legal hi.memWf _ _
    memImplemented := implemented_of_mem_putResults hi.memImplemented
    memUnspecified := fun h => absurd rfl h
    outTail := fun _ j hl hj => outBit_complete_tail hi.legal (hout'.ge.trans hl) hj
    corrTail := fun _ e hl he => corrWord_complete_tail hi.legal (hcorr'.ge.trans hl) he
    inEpochOld := hi.inEpochOld
    outEpochOld := nofun }

/-- R152, R154: the error codes but that of INVALID_CHARACTER are 2 to 7. -/
theorem errCodeOf_bounds {k : ErrKind} (hk : k ≠ .invalidCharacter) :
    2 ≤ (errCodeOf k).toNat ∧ (errCodeOf k).toNat ≤ 7 := by
  cases k with
  | invalidCharacter => exact absurd rfl hk
  | _ => decide

theorem errCodeOf_ne_zero (k : ErrKind) : errCodeOf k ≠ 0 := by cases k <;> decide

/-- R159: a completion with an error that commands raise. -/
theorem inv_complete_error {s : State} {e : CmdError} (hi : Inv s) (hk : e.kind ≠ .invalidCharacter) :
    Inv (complete (.error e) s) where
  legal := hi.legal
  pendingIffBusy := rfl
  busyNotDone := nofun
  busyFlags := nofun
  errIff _ := (decide_eq_true (errCodeOf_ne_zero e.kind)).symm
  correctedIff _ := rfl
  validClean := nofun
  errCodeNamed := .inr (errCodeOf_bounds hk)
  outLenLe := Nat.zero_le _
  corrCountLe := Nat.zero_le _
  remLenLe := Nat.zero_le _
  remFits := Nat.one_pos
  errorNoOutput _ := ⟨rfl, rfl, rfl, rfl⟩
  noErrorFields h := absurd h (errCodeOf_ne_zero e.kind)
  memWf := Memory.putResults_wf hi.legal hi.memWf _ _
  memImplemented := implemented_of_mem_putResults hi.memImplemented
  memUnspecified h := absurd rfl h
  outTail _ _ _ hj := outBit_complete_tail hi.legal (Nat.zero_le _) hj
  corrTail _ _ _ he := corrWord_complete_tail hi.legal (Nat.zero_le _) he
  inEpochOld := hi.inEpochOld
  outEpochOld := nofun

/-- R96: the completion of an accepted word, whatever its result is. -/
theorem inv_complete {s : State} (hi : Inv s) (w : Word) : Inv (complete (resultOfWord w s) s) := by
  cases hr : resultOfWord w s with
  | ok o => exact inv_complete_ok hi (resultOfWord_fits hr)
  | error e => exact inv_complete_error hi (resultOfWord_error_kind hr)

/-- R92: acceptance. -/
theorem inv_acceptCommand {s : State} (hi : Inv s) (w : Word) : Inv (acceptCommand w s) :=
  { hi with
    pendingIffBusy := rfl
    busyNotDone := fun _ => rfl
    busyFlags := fun _ => ⟨rfl, rfl, rfl⟩
    errIff := nofun
    correctedIff := nofun
    validClean := nofun }

/-- R91: a STATUS write. -/
theorem inv_clearFlags {s : State} (hi : Inv s) (v : Word) : Inv (clearFlags v s) :=
  { hi with busyNotDone := fun h => by simp [hi.busyNotDone h] }

/-- A word write leaves every byte outside the word as it was. -/
theorem readByte_putWord_frame {s : State} (hwf : s.mem.wf = true) {a x : Nat} (v : Word) (h : ¬ (a ≤ x ∧ x < a + 4)) :
    readByte { s with mem := s.mem.putWord a v } x = readByte s x := by
  simp [readByte, Memory.byteAt_putWord hwf, h]

/-- R95: a write of an implemented IN_BUF word. -/
theorem inv_storeIn {s : State} (hi : Inv s) {w : Nat} (hw : w < s.params.maxBits / 32) (v : Word) :
    Inv { s with mem := s.mem.putWord (inBase + 4 * w) v } := by
  have hb := Config.Params.maxBits_le hi.legal
  have hbelow : inBase + 4 * w + 4 ≤ outBase := by simp only [inBase, outBase]; omega
  have hout {a : Nat} (ha : outBase ≤ a) :
      readWord { s with mem := s.mem.putWord (inBase + 4 * w) v } a = readWord s a :=
    readWord_congr fun k _ => readByte_putWord_frame hi.memWf v (by omega)
  exact { hi with
    memWf := Memory.putWord_wf hi.memWf _ _
    memImplemented := fun c hc => by
      rcases Memory.mem_putWord hc with ⟨h1, h2⟩ | hc
      · exact implemented_in (p := s.params) (by omega) (by omega)
      · exact hi.memImplemented c hc
    memUnspecified := fun ho c hc => by
      rcases Memory.mem_putWord hc with ⟨h1, h2⟩ | hc
      · omega
      · exact hi.memUnspecified ho c hc
    outTail := fun ho j hl hj => by
      rw [outBit, bufBit, hout (Nat.le_add_right _ _)]
      exact hi.outTail ho j hl hj
    corrTail := fun ho e hl he => by
      rw [corrWord, hout (Nat.le_add_right_of_le (by decide))]
      exact hi.corrTail ho e hl he }

/-- Every effect keeps the invariant. -/
theorem StepEffect.inv {s u : State} (he : StepEffect s u) (hi : Inv s) : Inv u := by
  cases he with
  | powerOn => exact inv_powerOnReset hi.legal
  | completion => exact inv_complete hi _
  | unchanged => exact hi
  | soft => exact inv_softReset hi
  | clear => exact inv_clearFlags hi _
  | accept => exact inv_acceptCommand hi _
  | storeIn _ _ hw => exact inv_storeIn hi hw _
  | violation | enable | setN | setInLen => exact { hi with }

end Sys2Proof.Machine

namespace Sys2Proof.Proofs

open Sys2Proof.Machine

/-- Settles O9: a step has one of the effects of `StepEffect`, and each of them keeps the invariant. -/
theorem everyStepKeepsTheInvariant : Obligations.EveryStepKeepsTheInvariant := by
  intro s t hi h
  obtain ⟨u, he, hs⟩ := step_effect h
  exact (he.inv hi).of_sameMachine hs

/-- Settles O11: the effects that keep a busy block busy change no other field. -/
theorem busyWindowKeepsCommandAndBuffers : Obligations.BusyWindowKeepsCommandAndBuffers := by
  intro s t hb h ht
  obtain ⟨u, he, hs⟩ := step_effect h
  have hu := he.busy_frame hb (hs.busy.symm.trans ht)
  rwa [← hs.block] at hu

/-- Settles O27, by the effects that change BUSY. -/
theorem busyFollowsTheCommand : Obligations.BusyFollowsTheCommand := by
  intro s t h
  obtain ⟨u, he, hs⟩ := step_effect h
  refine ⟨?_, ?_, fun hc => busy_of_step_completes hc h⟩ <;> rw [hs.busy]
  · rw [hs.pending]; exact he.busy_rises
  · exact he.busy_falls

/-- Settles O28, by the effects that change DONE and the steps that must. -/
theorem doneFollowsCompletions : Obligations.DoneFollowsCompletions := by
  intro s t h
  obtain ⟨u, he, hs⟩ := step_effect h
  refine ⟨fun hc => done_of_step_completes hc h, fun h0 h1 => he.done_rises h0 (hs.done.symm.trans h1),
    fun h1 h0 => he.done_falls h1 (hs.done.symm.trans h0), ?_, ?_, fun hr => done_of_step_resets hr h⟩
  · rintro ⟨w, hb, hw⟩; exact done_of_step_accepts hb hw h
  · rintro ⟨v, hw, hv⟩; exact done_of_step_clears hw hv h

/-- Settles O4: the registers, the three windows, and the way back from an aligned address. -/
theorem addressMapIsExact : Obligations.AddressMapIsExact := by
  refine ⟨targetOf_reg, fun w hw => ⟨targetOf_targetAddr_inBuf hw, targetOf_targetAddr_outBuf hw,
    targetOf_targetAddr_corrBuf hw⟩, fun a ha => ?_⟩
  by_cases hr : 0x4C ≤ a.toNat ∧ a.toNat < 0x4000
  · exact .inl ⟨hr.1, hr.2, targetOf_reserved hr.1 hr.2⟩
  · exact .inr (targetAddr_targetOf ha (by omega))

/-- Settles O8: `State.reset` is what the power-on reset of draw 0 leaves. -/
theorem resetMeetsTheInvariant : Obligations.ResetMeetsTheInvariant :=
  inv_powerOnReset (s := { State.reset with draws := 0 }) (by decide)

/-- Settles O35: r(0) = 0 is the one value that is computed; the others are the reset state's own fields. -/
theorem resetValues : Obligations.ResetValues := by
  have hr : parityBits 0 = 0 := rfl
  exact ⟨by decide, rfl, rfl, rfl, rfl, rfl, by simp [readReg, State.reset, hr], by simp [readReg, State.reset, dataLen]⟩

end Sys2Proof.Proofs
end

section
/-! SUPPORT. The proofs of the memory family (20_memory.md): host transactions, bit packing, and which steps change the
operands and the results. -/

namespace Sys2Proof.Machine

/-! ### One host transaction (R51, R52, R59, R62) -/

/-- R62: a host turn of the schedule performs the script's next transaction. -/
theorem step_host_bus {s : State} {ts : List Turn} {x : Txn} {rest : List HostMove} (ht : s.turns = .host :: ts)
    (hh : s.host = .bus x :: rest) : step s = .next (busStep x { s with turns := ts, host := rest }) := by
  simp [step, nextStep, hostTurn, ht, hh]

/-- S0: after the schedule a transaction at the head of the script comes before the engine. -/
theorem step_bus_of_no_turns {s : State} {x : Txn} {rest : List HostMove} (ht : s.turns = [])
    (hh : s.host = .bus x :: rest) : step s = .next (busStep x { s with host := rest }) := by
  simp [step, nextStep, hostTurn, hostWaits, ht, hh]

theorem Txn.wellFormed_iff (x : Txn) : x.wellFormed = true ↔ x.size = 4 ∧ x.addr.toNat % 4 = 0 := by
  simp [Txn.wellFormed]

/-- R52: the answer to a transaction that is not legal. -/
theorem busStep_of_not_wellFormed {x : Txn} (hx : ¬ x.wellFormed = true) (s : State) :
    busStep x s = { s with response := some .busError } := if_neg hx

@[simp] theorem busWrite_response (tg : Target) (v : Word) (s : State) : (busWrite tg v s).response = some .ok := rfl

theorem busRead_response (tg : Target) (s : State) : ∃ v, (busRead tg s).response = some (.data v) := by
  unfold busRead
  split <;> exact ⟨_, rfl⟩

/-- R51: a legal transaction is answered with OK or with data. -/
theorem busStep_response_ne_busError {x : Txn} (hx : x.wellFormed = true) (s : State) :
    (busStep x s).response ≠ some .busError := by
  rw [busStep, if_pos hx]
  cases x.kind with
  | read =>
    obtain ⟨v, hv⟩ := busRead_response (targetOf x.addr) s
    simp [hv]
  | write => simp

/-- R59: a read leaves the block as it was. -/
theorem busStep_read_block {x : Txn} (hk : x.kind = .read) (s : State) :
    (busStep x s).toBlock = s.toBlock ∧ s.draws ≤ (busStep x s).draws := by
  rcases busStep_cases x s with h | ⟨-, -, hw, -⟩ | ⟨-, hw, -⟩
  · exact h
  · simp [hk] at hw
  · simp [hk] at hw

/-! ### Bit packing (R54) -/

/-- R54: bit `i` of buffer word `w` is bit `32w + 31 − i` of the sequence. -/
theorem readWord_getLsbD (s : State) (base w : Nat) {i : Nat} (hi : i < 32) :
    (readWord s (base + 4 * w)).getLsbD i = bufBit s base (32 * w + 31 - i) := by
  have hword : (32 * w + 31 - i) / 32 = w := by omega
  have hbit : 31 - (32 * w + 31 - i) % 32 = i := by omega
  rw [bufBit, hword, hbit]

/-! ### What changes the operands (10_state.md R31, R32, R55, R61) -/

theorem SameMachine.n {u t : State} (h : SameMachine u t) : t.n = u.n := congrArg Block.n h.block

theorem SameMachine.inLen {u t : State} (h : SameMachine u t) : t.inLen = u.inLen := congrArg Block.inLen h.block

theorem SameMachine.mem {u t : State} (h : SameMachine u t) : t.mem = u.mem := congrArg Block.mem h.block

theorem SameMachine.readByte {u t : State} (h : SameMachine u t) (a : Nat) : readByte t a = readByte u a := by
  rw [Machine.readByte, Machine.readByte, h.mem, h.params]

/-- R31: N changes only by a host write or a reset. -/
theorem StepEffect.n_changes {s u : State} (he : StepEffect s u) (h : u.n ≠ s.n) :
    (s.busy = false ∧ Writes s (.reg .n) u.n) ∨ Resets s := by
  cases he with
  | powerOn ht => exact .inr (.inl ⟨_, ht⟩)
  | soft hw hv => exact .inr (.inr ⟨_, hw, hv⟩)
  | setN hb hw => exact .inl ⟨hb, hw⟩
  | _ => simp at h

/-- R32: IN_LEN changes only by a host write or a reset. -/
theorem StepEffect.inLen_changes {s u : State} (he : StepEffect s u) (h : u.inLen ≠ s.inLen) :
    (s.busy = false ∧ Writes s (.reg .inLen) u.inLen) ∨ Resets s := by
  cases he with
  | powerOn ht => exact .inr (.inl ⟨_, ht⟩)
  | soft hw hv => exact .inr (.inr ⟨_, hw, hv⟩)
  | setInLen hb hw => exact .inl ⟨hb, hw⟩
  | _ => simp at h

/-- R178: the soft reset leaves every byte below OUT_BUF as it was. -/
theorem readByte_softReset_in (s : State) {a : Nat} (ha : a < outBase) : readByte (softReset s) a = readByte s a := by
  rw [readByte, readByte, softReset_params, softReset_mem, Memory.byteAt_dropResults, if_pos ha]

/-- R55, R61, R178: a byte below OUT_BUF changes only by a host write of its IN_BUF word or by the power-on reset. -/
theorem StepEffect.inByte_changes {s u : State} (he : StepEffect s u) (hwf : s.mem.wf = true) {a : Nat}
    (ha : a < outBase) (h : readByte u a ≠ readByte s a) :
    (s.busy = false ∧ ∃ w v, Writes s (.inBuf w) v ∧ inBase + 4 * w ≤ a ∧ a < inBase + 4 * w + 4) ∨
      ∃ ts, s.turns = .rst :: ts := by
  cases he with
  | powerOn ht => exact .inr ⟨_, ht⟩
  | completion => exact absurd (readByte_complete_in _ s ha) h
  | soft => exact absurd (readByte_softReset_in s ha) h
  | storeIn hb hw =>
    refine .inl ⟨hb, _, _, hw, ?_⟩
    by_contra hout
    exact h (readByte_putWord_frame hwf _ hout)
  | unchanged | violation | enable | clear | accept | setN | setInLen => exact absurd rfl h

/-! ### What changes the results (R56, R57, 70_reset_and_hazards.md R187) -/

/-- A write of an implemented IN_BUF word leaves every word of OUT_BUF and CORR_BUF as it was. -/
theorem readWord_storeIn_frame {s : State} (hp : s.params.legal = true) (hwf : s.mem.wf = true) {w a : Nat}
    (hw : w < s.params.maxBits / 32) (v : Word) (ha : outBase ≤ a) :
    readWord { s with mem := s.mem.putWord (inBase + 4 * w) v } a = readWord s a := by
  have hb := Config.Params.maxBits_le hp
  have hbelow : inBase + 4 * w + 4 ≤ outBase := by simp only [inBase, outBase]; omega
  exact readWord_congr fun k _ => readByte_putWord_frame hwf v (by omega)

end Sys2Proof.Machine

namespace Sys2Proof.Claims

open Sys2Proof.Machine

theorem SameResults.refl (s : State) : SameResults s s := by constructor <;> intros <;> rfl

/-- The results are of block and parameters alone. -/
theorem SameResults.of_sameMachine {s u t : State} (hr : SameResults s u) (h : SameMachine u t) : SameResults s t := by
  obtain ⟨block, params, host, turns, response, draws⟩ := t
  obtain ⟨rfl, rfl, -⟩ := h
  exact { hr with }

/-- R55: a write of an implemented IN_BUF word leaves the results as they were. -/
theorem sameResults_storeIn {s : State} (hp : s.params.legal = true) (hwf : s.mem.wf = true) {w : Nat}
    (hw : w < s.params.maxBits / 32) (v : Word) :
    SameResults s { s with mem := s.mem.putWord (inBase + 4 * w) v } :=
  { SameResults.refl s with
    outBuf := fun j _ => by
      rw [outBit, bufBit, readWord_storeIn_frame hp hwf hw v (Nat.le_add_right _ _)]
      rfl
    corrBuf := fun e _ => readWord_storeIn_frame hp hwf hw v (Nat.le_add_right_of_le (by decide)) }

/-- R187: every effect but a completion and a reset leaves the results as they were. -/
theorem SameResults.of_effect {s u : State} (he : StepEffect s u) (hp : s.params.legal = true)
    (hwf : s.mem.wf = true) (hc : ¬ Completes s) (hr : ¬ Resets s) : SameResults s u := by
  cases he with
  | powerOn ht => exact absurd (.inl ⟨_, ht⟩) hr
  | soft hw hv => exact absurd (.inr ⟨_, hw, hv⟩) hr
  | completion h => exact absurd h hc
  | storeIn _ _ hw => exact sameResults_storeIn hp hwf hw _
  | unchanged | violation | enable | clear | accept | setN | setInLen => exact { SameResults.refl s with }

end Sys2Proof.Claims

namespace Sys2Proof.Proofs

open Sys2Proof.Machine Sys2Proof.Claims

/-- Settles O14: the block by the cases of a transaction, the environment as for every transaction. -/
theorem readsChangeNoState : Obligations.ReadsChangeNoState := by
  intro s x hk
  obtain ⟨hblock, hdraws⟩ := busStep_read_block hk s
  obtain ⟨hparams, hhost, hturns⟩ := busStep_environment x s
  exact ⟨hblock, hparams, hhost, hturns, hdraws⟩

/-- Settles O30, by the effects that change N, IN_LEN and the bytes below OUT_BUF. -/
theorem operandsChangeOnlyByTheHost : Obligations.OperandsChangeOnlyByTheHost := by
  intro s t _ hwf h
  obtain ⟨u, he, hs⟩ := step_effect h
  rw [hs.n, hs.inLen]
  refine ⟨he.n_changes, he.inLen_changes, fun a ha => ?_⟩
  rw [hs.readByte]
  exact he.inByte_changes hwf ha

/-- Settles O31, by the effects that are neither a completion nor a reset. -/
theorem resultsStayUntilTheNextCompletion : Obligations.ResultsStayUntilTheNextCompletion := by
  intro s t hp hwf h hc hr
  obtain ⟨u, he, hs⟩ := step_effect h
  exact (SameResults.of_effect he hp hwf hc hr).of_sameMachine hs

/-- Settles O6, for a host turn of the schedule and for S0. -/
theorem hostStepIsOneTransaction : Obligations.HostStepIsOneTransaction :=
  ⟨fun _ _ _ _ => step_host_bus, fun _ _ _ => step_bus_of_no_turns⟩

/-- Settles O13, by the two branches of a transaction's legality. -/
theorem busErrorChangesNothing : Obligations.BusErrorChangesNothing := by
  intro s ts x rest ht hh
  rw [step_host_bus ht hh]
  refine ⟨fun hx => ?_, fun hx => ?_⟩
  · have hill : ¬ x.wellFormed = true := by rw [Txn.wellFormed_iff]; omega
    rw [busStep_of_not_wellFormed hill]
  · exact ⟨_, rfl, busStep_response_ne_busError ((Txn.wellFormed_iff x).mpr hx) _⟩

/-- Settles O19: a buffer's bits from its words and back, a packed word's bits, and the example evaluated. -/
theorem bitPackingIsMsbFirst : Obligations.BitPackingIsMsbFirst :=
  ⟨fun _ _ _ => rfl, fun s base w _ => readWord_getLsbD s base w, fun b _ => packWord_getLsbD b, by decide⟩

end Sys2Proof.Proofs
end

section
/-! SUPPORT. The proofs of the encoding family (30_encoding.md): which words decode to a command and which are illegal, the
engine's turn, and the host's turn at a WAIT. -/

namespace Sys2Proof

open Sys2Proof.Claims

/-! ### The command word (R71 to R74) -/

theorem toNat_rsvField (w : Word) : (rsvField w).toNat = w.toNat / 16 := by
  rw [rsvField, BitVec.extractLsb'_toNat, Nat.shiftRight_eq_div_pow]
  omega

theorem toNat_opField (w : Word) : (opField w).toNat = w.toNat % 16 := by
  rw [opField, BitVec.extractLsb'_toNat, Nat.shiftRight_zero]

theorem rsvField_eq_zero_iff (w : Word) : rsvField w = 0 ↔ w.toNat / 16 = 0 := by
  rw [← toNat_rsvField]
  exact BitVec.toNat_inj.symm

/-- R73: reserved bits are looked at before OP. -/
theorem decode_of_reservedBits {w : Word} (hr : rsvField w ≠ 0) : decode w = .error (.reservedBits (rsvField w)) :=
  if_pos hr

/-- R74: with RSV = 0 the words of OP 0 and of OP 6 to 15 are no commands. -/
theorem decode_of_reservedOp {w : Word} (hr : rsvField w = 0)
    (ho : (opField w).toNat = 0 ∨ 6 ≤ (opField w).toNat) : decode w = .error (.reservedOp (opField w)) := by
  rw [decode, if_neg (not_not_intro hr)]
  split
  case h_6 => rfl
  all_goals omega

theorem decode_encode (i : Instr) : decode (encode i) = .ok i := by cases i <;> rfl

theorem decode_of_illegalWord {w : Word} (h : IllegalWord w) : ∃ e, decode w = .error e := by
  by_cases hr : rsvField w = 0
  · have hdiv := (rsvField_eq_zero_iff w).mp hr
    have hop := h.resolve_left (absurd hdiv)
    rw [← toNat_opField] at hop
    exact ⟨_, decode_of_reservedOp hr hop⟩
  · exact ⟨_, decode_of_reservedBits hr⟩

theorem not_illegalWord_encode (i : Instr) : ¬ IllegalWord (encode i) := by
  intro h
  obtain ⟨e, he⟩ := decode_of_illegalWord h
  rw [decode_encode] at he
  cases he

/-- R72: the numbers 1 to 5 are the words of the five commands. -/
theorem exists_toNat_encode {n : Nat} (h1 : 1 ≤ n) (h5 : n ≤ 5) : ∃ i, (encode i).toNat = n := by
  interval_cases n
  · exact ⟨.hamDecode, rfl⟩
  · exact ⟨.hamEncode, rfl⟩
  · exact ⟨.crcVerify, rfl⟩
  · exact ⟨.crcAppend, rfl⟩
  · exact ⟨.crcRemainder, rfl⟩

theorem encode_or_illegalWord (w : Word) : (∃ i, w = encode i) ∨ IllegalWord w := by
  by_cases hw : 1 ≤ w.toNat ∧ w.toNat ≤ 5
  · obtain ⟨i, hi⟩ := exists_toNat_encode hw.1 hw.2
    exact .inl ⟨i, BitVec.eq_of_toNat_eq hi.symm⟩
  · refine .inr ?_
    rw [IllegalWord]
    omega

/-- R80: the decoder inverts the encoder, and every other word is illegal. -/
theorem decode_eq_ok_iff (w : Word) (i : Instr) : decode w = .ok i ↔ w = encode i := by
  refine ⟨fun h => ?_, fun h => h ▸ decode_encode i⟩
  rcases encode_or_illegalWord w with ⟨j, rfl⟩ | hill
  · rw [decode_encode] at h
    cases h
    rfl
  · obtain ⟨e, he⟩ := decode_of_illegalWord hill
    rw [he] at h
    cases h

end Sys2Proof

namespace Sys2Proof.Machine

open Sys2Proof.Claims

/-! ### The engine's turn (R80, 40_host_access.md R96) -/

theorem engineStep_of_decode {s : State} {w : Word} {i : Instr} (hp : s.pending = some w) (hd : decode w = .ok i) :
    engineStep s = exec i s := by
  simp [engineStep, hp, hd]

/-- 60_exceptions.md R161: an illegal word reads no operand. -/
theorem engineStep_of_illegalWord {s : State} {w : Word} (hp : s.pending = some w) (hw : IllegalWord w) :
    engineStep s = .next (complete illegalCommand s) := by
  obtain ⟨e, he⟩ := decode_of_illegalWord hw
  simp [engineStep, hp, he]

theorem step_engine_busy {s : State} {ts : List Turn} (ht : s.turns = .engine :: ts) (hb : s.busy = true) :
    step s = engineStep { s with turns := ts } := by
  simp [step, nextStep, engineTurn, ht, hb]

theorem step_engine_idle {s : State} {ts : List Turn} (ht : s.turns = .engine :: ts) (hb : s.busy = false) :
    step s = .next { s with turns := ts } := by
  simp [step, nextStep, engineTurn, ht, hb]

/-- S0: after the schedule the engine moves once the host waits. -/
theorem step_engine_of_no_turns {s : State} (ht : s.turns = []) (hb : s.busy = true) (hw : hostWaits s = true) :
    step s = engineStep s := by
  simp [step, nextStep, ht, hb, hw]

/-! ### The host's turn at a WAIT (R82) -/

theorem step_host {s : State} {ts : List Turn} (ht : s.turns = .host :: ts) :
    step s = .next (hostTurn { s with turns := ts }) := by
  simp [step, nextStep, ht]

/-- 10_state.md R23, R24: bit 0 of STATUS is BUSY. -/
theorem statusWord_getLsbD_zero (s : State) : (statusWord s).getLsbD 0 = s.busy := by
  cases hb : s.busy <;> simp [statusWord, zext1, hb]

/-- A read of STATUS is specified also while BUSY (40_host_access.md R84, R85). -/
theorem busStep_read_status (s : State) :
    busStep (memReadTxn (regAddr .status)) s = { s with response := some (.data (statusWord s)) } := by
  rw [busStep_read (by decide), targetOf_reg, busRead_value (.inr rfl)]
  rfl

theorem hostTurn_wait {s : State} {rest : List HostMove} (hh : s.host = .wait :: rest) :
    hostTurn s =
      { s with host := if s.busy then .wait :: rest else rest, response := some (.data (statusWord s)) } := by
  simp only [hostTurn, hh, busStep_read_status, statusWord_getLsbD_zero]
  rfl

end Sys2Proof.Machine

namespace Sys2Proof.Proofs

open Sys2Proof.Machine Sys2Proof.Claims

/-- Settles O1: the decoder inverts the encoder, and the five words evaluated. -/
theorem decodesExactlyTheFiveWords : Obligations.DecodesExactlyTheFiveWords :=
  ⟨decode_eq_ok_iff, rfl, rfl, rfl, rfl, rfl⟩

/-- Settles O3: the partition of the words, and the completion with the illegal word's error. -/
theorem illegalWordsCompleteWithCodeSeven : Obligations.IllegalWordsCompleteWithCodeSeven := by
  refine ⟨encode_or_illegalWord, not_illegalWord_encode, fun s ts w hlegal hb hp ht hw => ?_⟩
  rw [step_engine_busy ht hb]
  exact ⟨_, engineStep_of_illegalWord hp hw, complete_errored hlegal⟩

/-- Settles O2: two scripts expanded, the two kinds of illegal word, and the correction entry evaluated. -/
theorem encodingExamples : Obligations.EncodingExamples :=
  ⟨rfl, rfl, decode_of_reservedBits (by decide), by decide, decode_of_reservedOp (by decide) (by decide), by decide⟩

/-- Settles O5, for an engine turn of the schedule, for S0, and for a turn that passes. -/
theorem engineStepRunsTheDecodedCommand : Obligations.EngineStepRunsTheDecodedCommand := by
  refine ⟨fun s ts w i ht hb hp hd => ?_, fun s w i ht hw hb hp hd => ?_, fun _ _ => step_engine_idle⟩
  · rw [step_engine_busy ht hb]
    exact engineStep_of_decode hp hd
  · rw [step_engine_of_no_turns ht hb hw]
    exact engineStep_of_decode hp hd

/-- Settles O12: the step is the host's turn at the WAIT. -/
theorem waitEndsAtTheFirstIdleStatus : Obligations.WaitEndsAtTheFirstIdleStatus := by
  intro s ts rest ht hh
  rw [step_host ht]
  exact congrArg _ (hostTurn_wait hh)

end Sys2Proof.Proofs
end

section
/-! SUPPORT. The proofs of the host access family (40_host_access.md): a transaction at each target's address, which reads
are unspecified while BUSY, which writes are guarded or ignored, and what a completion's results depend on. -/

namespace Sys2Proof.Machine

/-! ### A transaction at a target's address (10_state.md R20, 20_memory.md R50) -/

theorem targetAddr_aligned (tg : Target) : (targetAddr tg).toNat % 4 = 0 := by
  cases tg with
  | reg r => cases r <;> rfl
  | reserved => rfl
  | inBuf w | outBuf w | corrBuf w =>
    simp only [targetAddr, inBase, outBase, corrBase, BitVec.toNat_ofNat]
    omega

theorem busStep_read_target {tg : Target} (ht : targetOf (targetAddr tg) = tg) (s : State) :
    busStep (memReadTxn (targetAddr tg)) s = busRead tg s := by
  rw [busStep_read (targetAddr_aligned tg), ht]

theorem busStep_write_target {tg : Target} (ht : targetOf (targetAddr tg) = tg) (v : Word) (s : State) :
    busStep (memWriteTxn (targetAddr tg) v) s = { writeTarget v tg s with response := some .ok } := by
  rw [busStep_write (targetAddr_aligned tg), ht, busWrite]

theorem toNat_regAddr (r : Reg) : (regAddr r).toNat = regOffset r := by cases r <;> rfl

theorem eq_regAddr {a : Addr} {r : Reg} (h : a.toNat = regOffset r) : a = regAddr r :=
  BitVec.eq_of_toNat_eq (h.trans (toNat_regAddr r).symm)

/-! ### Reads (R84 to R89) -/

/-- R85, R86: a read of a register whose value is specified. -/
theorem busStep_read_reg (r : Reg) {s : State} (h : s.busy = false ∨ unspecifiedWhileBusy s.params (.reg r) = false) :
    busStep (memReadTxn (regAddr r)) s = { s with response := some (.data (readReg s r)) } :=
  (busStep_read_target (tg := .reg r) (targetOf_reg r) s).trans (busRead_value h)

/-- R85: a reserved offset reads 0. -/
theorem busStep_read_reserved {a : Addr} (ha : a.toNat % 4 = 0) (h1 : 0x4C ≤ a.toNat) (h2 : a.toNat < 0x4000)
    (s : State) : busStep (memReadTxn a) s = { s with response := some (.data 0) } := by
  rw [busStep_read ha, targetOf_reserved h1 h2, busRead_value (.inr rfl), readTarget]

/-- 10_state.md R23: STATUS as the sum of its flags' weights. -/
theorem statusWord_eq_sum (s : State) :
    statusWord s = BitVec.ofNat 32 (s.busyViol.toNat * 2 ^ 5 + s.corrected.toNat * 2 ^ 4 + s.valid.toNat * 2 ^ 3 +
      s.err.toNat * 2 ^ 2 + s.done.toNat * 2 ^ 1 + s.busy.toNat) := by
  have key : ∀ b5 b4 b3 b2 b1 b0 : Bool,
      zext1 b5 <<< 5 ||| zext1 b4 <<< 4 ||| zext1 b3 <<< 3 ||| zext1 b2 <<< 2 ||| zext1 b1 <<< 1 ||| zext1 b0 =
        BitVec.ofNat 32 (b5.toNat * 2 ^ 5 + b4.toNat * 2 ^ 4 + b3.toNat * 2 ^ 3 + b2.toNat * 2 ^ 2 + b1.toNat * 2 ^ 1 +
          b0.toNat) := by decide
  exact key _ _ _ _ _ _

/-- 41_hamming_sec_decoder.md R106: r(n) is the number of binary digits of n. -/
theorem parityBits_eq_succ {n k : Nat} (h1 : 2 ^ k ≤ n) (h2 : n < 2 ^ (k + 1)) : parityBits n = k + 1 := by
  have hle : parityBits n ≤ k + 1 := parityBits_le_iff.mpr h2
  have hgt : ¬ parityBits n ≤ k := fun h => absurd (parityBits_le_iff.mp h) (by omega)
  omega

/-- R89: OUT_LEN to ERR_LEN are the registers whose reads are unspecified while BUSY. -/
theorem unspecifiedWhileBusy_resultReg (p : Config.Params) {r : Reg} (h1 : 0x14 ≤ regOffset r)
    (h2 : regOffset r ≤ 0x34) : unspecifiedWhileBusy p (.reg r) = true := by
  cases r with
  | ctrl | status | cmd | n | inLen => exact absurd h1 (by decide)
  | hamR | hamM | capMaxBits | capMaxCorr | id => exact absurd h2 (by decide)
  | _ => rfl

/-- R89: the addresses whose reads are unspecified while BUSY. -/
theorem unspecifiedWhileBusy_targetOf {p : Config.Params} {a : Addr} (ha : a.toNat % 4 = 0)
    (h : (0x14 ≤ a.toNat ∧ a.toNat ≤ 0x34) ∨
      (0x8000 ≤ a.toNat ∧ a.toNat < 0xC000 ∧ (a.toNat - 0x8000) / 4 < p.maxBits / 32) ∨
      (0xC000 ≤ a.toNat ∧ (a.toNat - 0xC000) / 4 < p.maxCorr)) : unspecifiedWhileBusy p (targetOf a) = true := by
  rcases h with ⟨h1, h2⟩ | ⟨h1, h2, hw⟩ | ⟨h1, he⟩
  · obtain ⟨r, rfl⟩ := exists_reg (by omega) ha
    rw [toNat_regAddr] at h1 h2
    rw [targetOf_reg]
    exact unspecifiedWhileBusy_resultReg p h1 h2
  · rw [targetOf_outBuf h1 h2]
    exact decide_eq_true hw
  · rw [targetOf_corrBuf h1]
    exact decide_eq_true he

/-- What an idle read answers is the target's value. -/
theorem readTarget_of_busRead {tg : Target} {s : State} {v : Word} (hb : s.busy = false)
    (h : busRead tg s = { s with response := some (.data v) }) : readTarget s tg = v := by
  simpa [busRead_value (.inl hb)] using congrArg State.response h

/-- 20_memory.md R58: an IN_BUF word beyond the implemented size reads 0. -/
theorem readWord_inBuf_unimplemented {s : State} {w : Nat} (hp : s.params.legal = true) (hw : w < 4096)
    (h : s.params.maxBits / 32 ≤ w) : readWord s (inBase + 4 * w) = 0 := by
  have hm := Config.Params.maxBits_mod hp
  refine readWord_of_not_implemented fun k hk => ?_
  simp only [implemented, inBase, outBase, corrBase, Bool.or_eq_false_iff, Bool.and_eq_false_iff,
    decide_eq_false_iff_not]
  omega

/-! ### Writes (R90 to R98) -/

theorem busStep_write_reg (r : Reg) (v : Word) (s : State) :
    busStep (memWriteTxn (regAddr r) v) s = { writeReg v r s with response := some .ok } :=
  busStep_write_target (tg := .reg r) (targetOf_reg r) v s

theorem busStep_write_inBuf {w : Nat} (hw : w < 4096) (v : Word) (s : State) :
    busStep (memWriteTxn (targetAddr (.inBuf w)) v) s = { writeInBuf w v s with response := some .ok } :=
  busStep_write_target (targetOf_targetAddr_inBuf hw) v s

/-- R97: a write of an IN_BUF word beyond the implemented size is ignored, BUSY or not. -/
theorem writeInBuf_unimplemented {s : State} {w : Nat} (h : s.params.maxBits / 32 ≤ w) (v : Word) :
    writeInBuf w v s = s := if_neg (Nat.not_lt.mpr h)

/-- R95: the write of an implemented IN_BUF word. -/
theorem writeInBuf_idle {s : State} {w : Nat} (hb : s.busy = false) (hw : w < s.params.maxBits / 32) (v : Word) :
    writeInBuf w v s = { s with mem := s.mem.putWord (inBase + 4 * w) v } := by
  rw [writeInBuf, if_pos hw, guarded_idle hb]

/-- R98: a guarded write in the BUSY window. -/
theorem writeTarget_guarded_busy {s : State} {tg : Target} (hb : s.busy = true) (hg : isGuarded s.params tg = true)
    (v : Word) : writeTarget v tg s = { s with busyViol := true } := by
  cases tg with
  | reserved | outBuf | corrBuf => cases hg
  | inBuf w =>
    have hw : w < s.params.maxBits / 32 := of_decide_eq_true hg
    rw [writeTarget, writeInBuf, if_pos hw, guarded_busy hb]
  | reg r =>
    cases r with
    | cmd | n | inLen => rw [writeTarget, writeReg, guarded_busy hb]
    | _ => cases hg

/-- R97: the registers from OUT_LEN (0x14) on ignore writes. -/
theorem writeReg_readOnly {r : Reg} (h : 0x14 ≤ regOffset r) (v : Word) (s : State) : writeReg v r s = s := by
  cases r with
  | ctrl | status | cmd | n | inLen => exact absurd h (by decide)
  | _ => rfl

/-- A word reads back after its write, its four bytes being implemented (20_memory.md R53). -/
theorem readWord_putWord_same {s : State} (hwf : s.mem.wf = true) {a : Nat} (v : Word)
    (hi : ∀ k, k < 4 → implemented s.params (a + k) = true) :
    readWord { s with mem := s.mem.putWord a v } a = v := by
  refine readWord_of_lanes fun k hk => ?_
  simp [readByte, hi k hk, Memory.byteAt_putWord hwf, hk]

/-- R91: what a STATUS write leaves of the two flags. -/
theorem clearFlags_eq_ite (v : Word) (s : State) :
    clearFlags v s = { s with
      done := if v.getLsbD 1 then false else s.done, busyViol := if v.getLsbD 5 then false else s.busyViol } := by
  have key : ∀ a b : Bool, (a && !b) = if b then false else a := by decide
  rw [clearFlags, key, key]

/-- R98: what can clear BUSY_VIOL. -/
theorem StepEffect.busyViol_falls {s u : State} (he : StepEffect s u) (h1 : s.busyViol = true)
    (h0 : u.busyViol = false) : (∃ v, Writes s (.reg .status) v ∧ v.getLsbD 5 = true) ∨ Resets s := by
  cases he with
  | powerOn ht => exact .inr (.inl ⟨_, ht⟩)
  | soft hw hv => exact .inr (.inr ⟨_, hw, hv⟩)
  | clear hw => exact .inl ⟨_, hw, by simpa [h1] using h0⟩
  | _ => simp [h1] at h0

theorem SameMachine.busyViol {u t : State} (h : SameMachine u t) : t.busyViol = u.busyViol :=
  congrArg Block.busyViol h.block

/-! ### What a completion's results depend on (R96, 70_reset_and_hazards.md R188) -/

/-- 60_exceptions.md R160: an IN_LEN above MAX_BITS is CAPACITY_EXCEEDED for every command. -/
theorem resultOf_capacityExceeded (i : Instr) {s : State} (h : s.params.maxBits < operandLen s) :
    ∃ e, resultOf i s = .error e ∧ e.kind = .capacityExceeded := by
  cases i with
  | crcAppend => exact ⟨_, if_pos (Nat.lt_add_right 32 h), rfl⟩
  | _ => exact ⟨_, if_pos h, rfl⟩

/-- 10_state.md R31: a CRC command does not read N. -/
theorem resultOf_crc_n {i : Instr} (hi : i = .crcVerify ∨ i = .crcAppend ∨ i = .crcRemainder) (s : State)
    (v : Word) : resultOf i { s with n := v } = resultOf i s := by
  rcases hi with rfl | rfl | rfl <;> rfl

/-- R188: a command's result is a function of capacity, IN_LEN, the first IN_LEN bits of IN_BUF and, for a Hamming
command, N. -/
theorem resultOf_eq_of_operands {i : Instr} {s t : State} (hm : t.params.maxBits = s.params.maxBits)
    (hn : t.n = s.n ∨ i = .crcVerify ∨ i = .crcAppend ∨ i = .crcRemainder) (hl : t.inLen = s.inLen)
    (hb : ∀ j, j < s.inLen.toNat → inBit t j = inBit s j) : resultOf i t = resultOf i s := by
  rcases hn with hn | hi
  · exact resultOf_congr hm hn hl hb
  · rw [← resultOf_crc_n hi t s.n]
    exact resultOf_congr hm rfl hl hb

/-- The registers and flags that a completion writes come from the command's result alone. -/
theorem complete_block_congr (r : CmdResult) (s t : State) :
    (complete r t).toBlock = { (complete r s).toBlock with
      ctrlIe := t.ctrlIe, busyViol := t.busyViol, n := t.n, inLen := t.inLen, mem := (complete r t).mem } := by
  cases r <;> rfl

theorem Config.Params.legal_congr {p q : Config.Params} (h : q.maxBits = p.maxBits) : q.legal = p.legal := by
  rw [Config.Params.legal, h, Config.Params.legal]

end Sys2Proof.Machine

namespace Sys2Proof.Claims

open Sys2Proof.Machine

/-- Completions with one result at one capacity leave the same registers, OUT_BUF and CORR_BUF. -/
theorem sameResults_complete (r : CmdResult) {s t : State} (hp : s.params.legal = true)
    (hm : t.params.maxBits = s.params.maxBits) : SameResults (complete r s) (complete r t) := by
  have hq : t.params.legal = true := (Config.Params.legal_congr hm).trans hp
  have hreg {α : Type} (f : Block → α) := congrArg f (complete_block_congr r s t)
  exact {
    outLen := hreg Block.outLen
    corrCount := hreg Block.corrCount
    rem := hreg Block.rem
    remLen := hreg Block.remLen
    errCode := hreg Block.errCode
    errBlock := hreg Block.errBlock
    errSyndrome := hreg Block.errSyndrome
    errN := hreg Block.errN
    errLen := hreg Block.errLen
    outBuf := fun j hj => by
      rw [complete_params] at hj
      rw [outBit_complete r s hp hj, outBit_complete r t hq (hm ▸ hj)]
    corrBuf := fun e he => by
      rw [complete_params, Config.Params.maxCorr] at he
      rw [corrWord_complete r s hp he, corrWord_complete r t hq (by rwa [Config.Params.maxCorr, hm])] }

end Sys2Proof.Claims

namespace Sys2Proof.Proofs

open Sys2Proof.Machine Sys2Proof.Claims

/-- Settles O17: each of the two reads is at a target of R89, and the first leaves BUSY set. -/
theorem busyReadsAreFreshDraws : Obligations.BusyReadsAreFreshDraws := by
  intro s a hb ha hr
  have ht := unspecifiedWhileBusy_targetOf ha hr
  have hfirst := (busStep_read ha s).trans (busRead_unspecified hb ht)
  refine ⟨hfirst, ?_⟩
  rw [hfirst, busStep_read ha]
  exact busRead_unspecified hb ht

/-- Settles O18: each window's word by its address, its bits by R54, and R58 beyond the implemented size. -/
theorem bufferReads : Obligations.BufferReads := by
  intro s w hp hw
  have hin := busStep_read_target (targetOf_targetAddr_inBuf hw) s
  have hout := busStep_read_target (targetOf_targetAddr_outBuf hw) s
  have hcorr := busStep_read_target (targetOf_targetAddr_corrBuf hw) s
  refine ⟨⟨_, hin.trans (busRead_value (.inr rfl)), fun _ i => readWord_getLsbD s inBase w,
    readWord_inBuf_unimplemented hp hw⟩, fun hb => ⟨?_, ?_⟩, ?_, ?_⟩
  · exact ⟨_, hout.trans (busRead_value (.inl hb)), fun _ i => readWord_getLsbD s outBase w,
      fun h => readTarget_of_busRead hb (busRead_outBuf_unimplemented hp hw h)⟩
  · exact ⟨_, hcorr.trans (busRead_value (.inl hb)), fun _ => rfl,
      fun h => readTarget_of_busRead hb (busRead_corrBuf_unimplemented hp h)⟩
  · exact fun h => hout.trans (busRead_outBuf_unimplemented hp hw h)
  · exact fun h => hcorr.trans (busRead_corrBuf_unimplemented hp h)

/-- Settles O20, by the three cases of a write of an IN_BUF word. -/
theorem inBufWrites : Obligations.InBufWrites := by
  intro s w v hp hwf hw t
  have ht : t = { writeInBuf w v s with response := some .ok } := busStep_write_inBuf hw v s
  refine ⟨fun hb hi => ?_, fun hb hi => ?_, fun hi => ?_⟩
  · rw [writeInBuf_idle hb hi] at ht
    rw [ht]
    refine ⟨rfl, fun i h32 => ?_, fun a ha => readByte_putWord_frame hwf v ha⟩
    have hword := readWord_putWord_same hwf (a := inBase + 4 * w) v fun k hk =>
      implemented_in (p := s.params) (by omega) (by omega)
    exact (readWord_getLsbD _ inBase w h32).symm.trans (congrArg (·.getLsbD i) hword)
  · rw [ht]
    exact congrArg ({ · with response := some .ok })
      (writeTarget_guarded_busy (tg := .inBuf w) hb (decide_eq_true hi) v)
  · rw [ht, writeInBuf_unimplemented hi]

/-- Settles O25: the four guarded targets, and the effects that clear BUSY_VIOL. -/
theorem guardedWritesOnlySetBusyViol : Obligations.GuardedWritesOnlySetBusyViol := by
  refine ⟨fun s a v hb ha h => ?_, fun s t h h1 h0 => ?_⟩
  · have hg : isGuarded s.params (targetOf a) = true := by
      rcases h with h | h | h | ⟨h1, h2, hw⟩
      · rw [eq_regAddr (r := .cmd) h]; rfl
      · rw [eq_regAddr (r := .n) h]; rfl
      · rw [eq_regAddr (r := .inLen) h]; rfl
      · rw [targetOf_inBuf h1 h2]; exact decide_eq_true hw
    rw [busStep_write ha, busWrite, writeTarget_guarded_busy hb hg]
  · obtain ⟨u, he, hs⟩ := step_effect h
    exact he.busyViol_falls h1 (hs.busyViol.symm.trans h0)

/-- Settles O37: every command is the completion with its result. -/
theorem everyCommandCompletesInItsFrame : Obligations.EveryCommandCompletesInItsFrame := fun i s =>
  ⟨_, exec_eq_complete i s, complete_frame _ s, complete_busy _ s, complete_done _ s, complete_pending _ s⟩

/-- Settles O38: the two results are equal, and a completion's results come from the command's result. -/
theorem resultsDependOnOperandsOnly : Obligations.ResultsDependOnOperandsOnly := by
  intro i s₁ s₂ t₁ t₂ hp hm hn hl hbits h₁ h₂
  rw [exec_eq_complete] at h₁ h₂
  rw [resultOf_eq_of_operands hm hn hl hbits] at h₂
  cases h₁
  cases h₂
  have hflag (f : Block → Bool) := congrArg f (complete_block_congr (resultOf i s₁) s₁ s₂)
  exact ⟨sameResults_complete _ hp hm, hflag Block.err, hflag Block.valid, hflag Block.corrected⟩

/-- Settles O15: each register's read by its offset, the sum of STATUS, and r(n) by the powers of two around n. -/
theorem registerReads : Obligations.RegisterReads := by
  intro s reads
  have hr (r : Reg) (h : unspecifiedWhileBusy s.params (.reg r) = false) : reads (regAddr r) (readReg s r) :=
    busStep_read_reg r (.inr h)
  have hham {k : Nat} (h1 : 2 ^ k ≤ s.n.toNat) (h2 : s.n.toNat < 2 ^ (k + 1)) :
      reads (regAddr .hamR) (BitVec.ofNat 32 (k + 1)) ∧
        reads (regAddr .hamM) (BitVec.ofNat 32 (s.n.toNat - (k + 1))) := by
    rw [← parityBits_eq_succ h1 h2]
    exact ⟨hr .hamR rfl, hr .hamM rfl⟩
  refine ⟨hr .ctrl rfl, statusWord_eq_sum s ▸ hr .status rfl, hr .cmd rfl, hr .n rfl, hr .inLen rfl, hr .hamR rfl,
    hr .hamM rfl, hr .capMaxBits rfl, hr .capMaxCorr rfl, hr .id rfl,
    fun a ha h1 h2 => busStep_read_reserved ha h1 h2 s, fun hn => ?_, fun hn => ?_⟩
  · have h := hham (k := 31) (by rw [hn]; decide) (by rw [hn]; decide)
    rwa [hn] at h
  · have h := hham (k := 2) (by rw [hn]; decide) (by rw [hn]; decide)
    rwa [hn] at h

/-- Settles O16: with BUSY = 0 every register's read is specified. -/
theorem resultRegisterReadsWhenIdle : Obligations.ResultRegisterReadsWhenIdle := by
  refine ⟨?_, by decide⟩
  intro s hb reads
  have hr (r : Reg) : reads (regAddr r) (readReg s r) := busStep_read_reg r (.inl hb)
  exact ⟨hr .outLen, hr .corrCount, hr .rem, hr .remLen, hr .errCode, hr .errBlock, hr .errSyndrome, hr .errN,
    hr .errLen⟩

/-- Settles O21, by bit 1 of the value. -/
theorem ctrlWrites : Obligations.CtrlWrites := by
  intro s v
  have hw (v : Word) : busStep (memWriteTxn 0x0000#16 v) s = { writeCtrl v s with response := some .ok } :=
    busStep_write_reg .ctrl v s
  rw [hw v, hw 1, hw 3]
  refine ⟨fun hv => ?_, fun hv => ?_, rfl, rfl⟩
  · rw [writeCtrl, if_neg (Bool.eq_false_iff.mp hv)]
  · rw [writeCtrl, if_pos hv]
    exact ⟨rfl, rfl⟩

/-- Settles O22: the two flags by bits 1 and 5 of the value. -/
theorem statusWrites : Obligations.StatusWrites := by
  intro s v
  have hw (v : Word) : busStep (memWriteTxn 0x0004#16 v) s = { s with
      done := if v.getLsbD 1 then false else s.done
      busyViol := if v.getLsbD 5 then false else s.busyViol
      response := some .ok } := by
    rw [show (0x0004#16 : Addr) = regAddr .status from rfl, busStep_write_reg, writeReg, clearFlags_eq_ite]
  refine ⟨hw v, fun hv => ?_, hw 0, hw 0x22⟩
  rw [hw, irq, if_pos hv, Bool.false_and]

/-- Settles O23, for an accepted and for a guarded CMD write. -/
theorem cmdWriteAccepts : Obligations.CmdWriteAccepts := by
  intro s w
  have hw : busStep (memWriteTxn 0x0008#16 w) s = { guarded (acceptCommand w) s with response := some .ok } :=
    busStep_write_reg .cmd w s
  rw [hw]
  refine ⟨fun hb => ?_, fun hb => ?_⟩
  · rw [guarded_idle hb]
    exact ⟨rfl, rfl⟩
  · rw [guarded_busy hb]

/-- Settles O24, for a stored and for a guarded write; a length above MAX_BITS fails each command's first check. -/
theorem operandWritesStoreAnyValue : Obligations.OperandWritesStoreAnyValue := by
  intro s v
  have hn : busStep (memWriteTxn 0x000C#16 v) s = { writeReg v .n s with response := some .ok } :=
    busStep_write_reg .n v s
  have hl : busStep (memWriteTxn 0x0010#16 v) s = { writeReg v .inLen s with response := some .ok } :=
    busStep_write_reg .inLen v s
  rw [hn, hl, writeReg, writeReg]
  refine ⟨fun hb => ?_, fun hb => ?_⟩
  · rw [guarded_idle hb, guarded_idle hb]
    refine ⟨rfl, rfl, fun hv i => ?_⟩
    obtain ⟨e, he, hk⟩ := resultOf_capacityExceeded i (s := { s with inLen := v, response := some .ok }) hv
    exact ⟨_, exec_eq_complete i _, by rw [he, complete_error_errCode, hk]; rfl⟩
  · rw [guarded_busy hb, guarded_busy hb]
    exact ⟨rfl, rfl⟩

/-- Settles O26: no target of R97 has an effect. -/
theorem writesWithNoEffect : Obligations.WritesWithNoEffect := by
  intro s a v ha h
  have hw : writeTarget v (targetOf a) s = s := by
    rcases h with ⟨h1, h2⟩ | ⟨h1, h2⟩ | h1 | ⟨h1, h2, hi⟩
    · obtain ⟨r, rfl⟩ := exists_reg (by omega) ha
      rw [targetOf_reg]
      exact writeReg_readOnly ((toNat_regAddr r).symm ▸ h1) v s
    · rw [targetOf_reserved h1 h2]; rfl
    · by_cases h2 : a.toNat < 0xC000
      · rw [targetOf_outBuf h1 h2]; rfl
      · rw [targetOf_corrBuf (by omega)]; rfl
    · rw [targetOf_inBuf h1 h2]
      exact writeInBuf_unimplemented hi v
  rw [busStep_write ha, busWrite, hw]

end Sys2Proof.Proofs
end

section
/-! SUPPORT. The block functions of hamming_sec_decoder (41_hamming_sec_decoder.md R106 to R115, R118, R120, R121): parity
counts and positions, a block said by its bits, the syndrome as the XOR of positions, extraction and encoding. -/

namespace Sys2Proof.Machine

open Sys2Proof.Claims

/-! ### Parity counts and positions (R106 to R109) -/

theorem lt_parityBits_iff {n i : Nat} : i < parityBits n ↔ 2 ^ i ≤ n := by
  rw [← not_le, parityBits_le_iff]
  omega

/-- R106: r(n) from the powers of two around n. -/
theorem parityBits_eq_of_bounds {n r : Nat} (h1 : r = 0 ∨ 2 ^ (r - 1) ≤ n) (h2 : n < 2 ^ r) : parityBits n = r := by
  refine le_antisymm (parityBits_le_iff.mpr h2) ?_
  rcases h1 with rfl | h1
  · exact Nat.zero_le _
  · have := lt_parityBits_iff.mpr h1
    omega

theorem parityBits_two_pow_sub_one (r : Nat) : parityBits (2 ^ r - 1) = r := by
  refine parityBits_eq_of_bounds ?_ (Nat.sub_one_lt (Nat.two_pow_pos r).ne')
  cases r with
  | zero => exact .inl rfl
  | succ r =>
    have hpos := Nat.two_pow_pos r
    right
    rw [Nat.add_sub_cancel, Nat.pow_succ]
    omega

theorem parityBits_eq_log {n : Nat} (h : 1 ≤ n) : parityBits n = Nat.log 2 n + 1 :=
  parityBits_eq_succ (Nat.pow_log_le_self 2 (by omega)) (Nat.lt_pow_succ_log_self (by decide) n)

theorem parityBits_succ_le (n : Nat) : parityBits (n + 1) ≤ parityBits n + 1 := by
  have := lt_two_pow_parityBits n
  rw [parityBits_le_iff, Nat.pow_succ]
  omega

theorem dataLen_mono : Monotone dataLen := monotone_nat_of_le_succ fun n => by
  have := parityBits_succ_le n
  unfold dataLen
  omega

theorem isParityPos_iff {k : Nat} : isParityPos k = true ↔ ∃ i, k = 2 ^ i := by
  refine ⟨fun h => ⟨_, eq_of_beq h⟩, ?_⟩
  rintro ⟨i, rfl⟩
  simp [isParityPos, Nat.log2_two_pow]

@[simp] theorem isParityPos_two_pow (i : Nat) : isParityPos (2 ^ i) = true := isParityPos_iff.mpr ⟨i, rfl⟩

/-- R108: one more position is one more parity bit exactly when it is a power of two. -/
theorem parityBits_succ (n : Nat) : parityBits (n + 1) = parityBits n + if isParityPos (n + 1) then 1 else 0 := by
  split
  case isTrue hp =>
    obtain ⟨i, hi⟩ := isParityPos_iff.mp hp
    have h1 : parityBits n = i := by
      rw [show n = 2 ^ i - 1 by omega, parityBits_two_pow_sub_one]
    have h2 : i < parityBits (n + 1) := lt_parityBits_iff.mpr hi.ge
    have h3 := parityBits_succ_le n
    omega
  case isFalse hp =>
    have hle : n + 1 ≤ 2 ^ parityBits n := lt_two_pow_parityBits n
    have hne : n + 1 ≠ 2 ^ parityBits n := fun h => hp (isParityPos_iff.mpr ⟨_, h⟩)
    have hge : parityBits n ≤ parityBits (n + 1) := parityBits_le_iff.mpr (lt_two_pow_parityBits (n + 1)).le
    have hle' : parityBits (n + 1) ≤ parityBits n := parityBits_le_iff.mpr (by omega)
    exact le_antisymm hle' hge

theorem countP_isParityPos (n : Nat) : (List.range' 1 n).countP isParityPos = parityBits n := by
  induction n with
  | zero => rfl
  | succ n ih =>
    rw [List.range'_concat, List.countP_append, ih, Nat.one_mul, Nat.add_comm 1 n,
      List.countP_singleton, parityBits_succ]

theorem countP_dataPos (n : Nat) : (List.range' 1 n).countP (fun k => !isParityPos k) = dataLen n := by
  have hsplit := List.length_eq_countP_add_countP isParityPos (l := List.range' 1 n)
  simp only [List.length_range', countP_isParityPos, Bool.decide_eq_false, Bool.not_eq_true] at hsplit
  have := dataLen_add_parityBits n
  omega

/-- R109: the check of value 2^i covers the positions with bit i set. -/
theorem covers_two_pow (i k : Nat) : covers (2 ^ i) k = k.testBit i := by
  rw [covers, Nat.and_two_pow]
  cases k.testBit i <;> simp

/-! ### A block by its bits (00_scope.md R9) -/

theorem map_bitAt (blk : Bits) : (List.range' 1 blk.length).map (bitAt blk) = blk := by
  refine List.ext_getElem (by simp) fun i h1 h2 => ?_
  simp [bitAt, h2]

theorem eq_of_bitAt {a b : Bits} (hl : a.length = b.length)
    (h : ∀ k, 1 ≤ k → k ≤ a.length → bitAt a k = bitAt b k) : a = b := by
  rw [← map_bitAt a, ← map_bitAt b, ← hl]
  refine List.map_congr_left fun k hk => ?_
  rw [List.mem_range'_1] at hk
  exact h k (by omega) (by omega)

theorem bitAt_map_range' (f : Nat → Bool) {n k : Nat} (h1 : 1 ≤ k) (h2 : k ≤ n) :
    bitAt ((List.range' 1 n).map f) k = f k := by
  have : k - 1 < n := by omega
  simp [bitAt, show k ≠ 0 by omega, this, show 1 + (k - 1) = k by omega]

/-- Writing a bit at 1-based position `p`. -/
theorem bitAt_set {blk : Bits} {p : Nat} (h1 : 1 ≤ p) (h2 : p ≤ blk.length) (v : Bool) (k : Nat) :
    bitAt (blk.set (p - 1) v) k = if k = p then v else bitAt blk k := by
  by_cases hk : k = 0
  · simp [bitAt, hk, show 0 ≠ p by omega]
  · have hp : p - 1 = k - 1 ↔ k = p := by omega
    by_cases hkp : k = p
    · subst hkp
      simp [bitAt, hk, show k - 1 < blk.length by omega]
    · simp [bitAt, hk, hkp, hp]

/-- R113's flip is the writing of the other bit. -/
theorem flipAt_eq_set {blk : Bits} {k : Nat} (h1 : 1 ≤ k) (h2 : k ≤ blk.length) :
    flipAt blk k = blk.set (k - 1) (!bitAt blk k) := by
  have : k - 1 < blk.length := by omega
  rw [flipAt, List.modify_eq_set_getElem?]
  simp [bitAt, show k ≠ 0 by omega, this]

theorem bitAt_flipAt {blk : Bits} {k : Nat} (h1 : 1 ≤ k) (h2 : k ≤ blk.length) (j : Nat) :
    bitAt (flipAt blk k) j = (bitAt blk j ^^ decide (j = k)) := by
  rw [flipAt_eq_set h1 h2, bitAt_set h1 h2]
  by_cases hj : j = k <;> simp [hj]

theorem bitAt_replicate_false (n k : Nat) : bitAt (List.replicate n false) k = false := by
  by_cases hk : k - 1 < n <;> simp [bitAt, hk]

/-- A block that differs from another at position `k` and nowhere else is the other with `k` flipped. -/
theorem eq_flipAt_of_bitAt {blk blk' : Bits} {k : Nat} (hl : blk.length = blk'.length) (h1 : 1 ≤ k)
    (h2 : k ≤ blk.length) (h : ∀ j, 1 ≤ j → j ≤ blk.length → bitAt blk j = (bitAt blk' j ^^ decide (j = k))) :
    blk = flipAt blk' k := by
  refine eq_of_bitAt (by simpa using hl) fun j hj1 hj2 => ?_
  rw [bitAt_flipAt h1 (hl ▸ h2), h j hj1 hj2]

/-! ### The parity over selected positions -/

/-- The parity over selected positions as a fold over a list of positions. -/
theorem xor_xorOver_map (sel f : Nat → Bool) (n : Nat) : ∀ (k : Nat) (acc : Bool),
    (acc ^^ xorOver sel k ((List.range' k n).map f)) = (((List.range' k n).filter sel).map f).foldl (· ^^ ·) acc := by
  induction n with
  | zero => intro k acc; simp [xorOver]
  | succ n ih =>
    intro k acc
    rw [List.range'_succ, List.map_cons, xorOver, List.filter_cons, ← Bool.xor_assoc, ih]
    cases sel k <;> simp

theorem xorOver_eq_foldl (sel : Nat → Bool) (blk : Bits) :
    xorOver sel 1 blk = (((List.range' 1 blk.length).filter sel).map (bitAt blk)).foldl (· ^^ ·) false := by
  rw [← xor_xorOver_map, map_bitAt, Bool.false_xor]

theorem xorOver_replicate_false (sel : Nat → Bool) (n : Nat) : ∀ k, xorOver sel k (List.replicate n false) = false := by
  induction n with
  | zero => intro k; rfl
  | succ n ih => intro k; simp [List.replicate_succ, xorOver, ih]

/-- A write changes the parity by what the selected position changed. -/
theorem xorOver_set (sel : Nat → Bool) (v : Bool) : ∀ (blk : Bits) (k i : Nat) (hi : i < blk.length),
    xorOver sel k (blk.set i v) = (xorOver sel k blk ^^ (sel (k + i) && (blk[i] ^^ v)))
  | b :: bs, k, 0, _ => by
    simp only [List.set_cons_zero, xorOver, List.getElem_cons_zero, Nat.add_zero]
    cases sel k <;> cases b <;> cases v <;> simp
  | b :: bs, k, i + 1, hi => by
    have hi' : i < bs.length := Nat.lt_of_succ_lt_succ hi
    rw [List.set_cons_succ, xorOver, xorOver_set sel v bs (k + 1) i hi', xorOver, List.getElem_cons_succ,
      Bool.xor_assoc, Nat.add_right_comm, Nat.add_assoc]

theorem xorOver_flipAt (sel : Nat → Bool) {blk : Bits} {k : Nat} (h1 : 1 ≤ k) (h2 : k ≤ blk.length) :
    xorOver sel 1 (flipAt blk k) = (xorOver sel 1 blk ^^ sel k) := by
  have hk : k - 1 < blk.length := by omega
  rw [flipAt_eq_set h1 h2, xorOver_set sel _ blk 1 (k - 1) hk, Nat.add_sub_cancel' h1]
  simp [bitAt, show k ≠ 0 by omega, hk]

/-- Positions left out of the selection read as 0. -/
theorem xorOver_and_map (sel q f : Nat → Bool) (n : Nat) : ∀ k,
    xorOver (fun j => sel j && q j) k ((List.range' k n).map f) =
      xorOver sel k ((List.range' k n).map fun j => q j && f j) := by
  induction n with
  | zero => intro k; rfl
  | succ n ih => intro k; simp [List.range'_succ, xorOver, ih, Bool.and_assoc]

/-- The bit at a position taken out of the selection. -/
theorem xorOver_eq_xor_bitAt (sel : Nat → Bool) {blk : Bits} {p : Nat} (h1 : 1 ≤ p) (h2 : p ≤ blk.length) :
    xorOver sel 1 blk = (xorOver (fun k => sel k && k != p) 1 blk ^^ (sel p && bitAt blk p)) := by
  have hclear : (List.range' 1 blk.length).map (fun k => k != p && bitAt blk k) = blk.set (p - 1) false := by
    refine eq_of_bitAt (by simp) fun k hk1 hk2 => ?_
    rw [bitAt_map_range' _ hk1 (by simpa using hk2), bitAt_set h1 h2]
    by_cases hk : k = p <;> simp [hk]
  have hp : p - 1 < blk.length := by omega
  have hbit : blk[p - 1] = bitAt blk p := by simp [bitAt, show p ≠ 0 by omega, hp]
  have hset := xorOver_set sel false blk 1 (p - 1) hp
  rw [← hclear, ← xorOver_and_map, map_bitAt, Nat.add_sub_cancel' h1, hbit, Bool.xor_false] at hset
  rw [hset, Bool.xor_assoc, Bool.xor_self, Bool.xor_false]

/-! ### The syndrome (R111, R112) -/

theorem testBit_foldl_parities (par : Nat → Bool) (i r : Nat) :
    ((List.range r).foldl (fun s j => if par j then s ||| 2 ^ j else s) 0).testBit i = (decide (i < r) && par i) := by
  induction r with
  | zero => simp
  | succ r ih =>
    have hstep (s : Nat) : (if par r then s ||| 2 ^ r else s).testBit i =
        (s.testBit i || (par r && decide (r = i))) := by
      cases par r <;> simp [Nat.testBit_two_pow]
    rw [List.range_succ, List.foldl_append, List.foldl_cons, List.foldl_nil, hstep, ih]
    by_cases hri : r = i
    · subst hri; simp
    · simp [hri, show i < r + 1 ↔ i < r by omega]

/-- R111: bit i of the syndrome is the parity of check i. -/
theorem testBit_syndrome_eq_and (n i : Nat) (blk : Bits) :
    (syndrome n blk).testBit i = (decide (i < parityBits n) && xorOver (covers (2 ^ i)) 1 blk) :=
  testBit_foldl_parities (fun i => xorOver (covers (2 ^ i)) 1 blk) i (parityBits n)

/-- R111: the syndrome has r(n) bits. -/
theorem syndrome_lt (n : Nat) (blk : Bits) : syndrome n blk < 2 ^ parityBits n :=
  Nat.lt_pow_two_of_testBit _ fun i hi => by simp [testBit_syndrome_eq_and, Nat.not_lt.mpr hi]

/-- No position of a block is covered by a check beyond the r(n)-th. -/
theorem covers_beyond {n k i : Nat} (hk : k ≤ n) (hi : parityBits n ≤ i) : covers (2 ^ i) k = false := by
  have := parityBits_le_iff.mp hi
  rw [covers_two_pow, Nat.testBit_lt_two_pow (by omega)]

theorem testBit_syndrome {n : Nat} {blk : Bits} (hl : blk.length = n) (i : Nat) :
    (syndrome n blk).testBit i = xorOver (covers (2 ^ i)) 1 blk := by
  rw [testBit_syndrome_eq_and]
  by_cases hi : i < parityBits n
  · simp [hi]
  · have hnone : (List.range' 1 blk.length).filter (covers (2 ^ i)) = [] := by
      refine List.filter_eq_nil_iff.mpr fun k hk => ?_
      rw [List.mem_range'_1] at hk
      simp [covers_beyond (n := n) (k := k) (by omega) (Nat.le_of_not_lt hi)]
    simp [hi, xorOver_eq_foldl, hnone]

/-- Bit i of an XOR of positions is the parity of the positions with bit i set. -/
theorem testBit_foldl_xor (f : Nat → Bool) (i n : Nat) : ∀ k acc : Nat,
    (((List.range' k n).filter f).foldl (· ^^^ ·) acc).testBit i =
      (acc.testBit i ^^ xorOver (covers (2 ^ i)) k ((List.range' k n).map f)) := by
  induction n with
  | zero => intro k acc; simp [xorOver]
  | succ n ih =>
    intro k acc
    rw [List.range'_succ, List.map_cons, xorOver, List.filter_cons, covers_two_pow]
    cases hf : f k <;> simp [ih]

/-- R112: the syndrome is the XOR of the positions of the set bits. -/
theorem syndrome_eq_foldl_xor {n : Nat} {blk : Bits} (hl : blk.length = n) :
    syndrome n blk = ((List.range' 1 n).filter (bitAt blk)).foldl (· ^^^ ·) 0 := by
  refine Nat.eq_of_testBit_eq fun i => ?_
  rw [testBit_syndrome hl, testBit_foldl_xor, Nat.zero_testBit, Bool.false_xor, ← hl, map_bitAt]

/-- R112: a flip at position k changes the syndrome by ⊕ k. -/
theorem syndrome_flipAt {n k : Nat} {blk : Bits} (hl : blk.length = n) (h1 : 1 ≤ k) (h2 : k ≤ n) :
    syndrome n (flipAt blk k) = syndrome n blk ^^^ k := by
  refine Nat.eq_of_testBit_eq fun i => ?_
  rw [Nat.testBit_xor, testBit_syndrome (by simpa using hl), testBit_syndrome hl, xorOver_flipAt _ h1 (hl ▸ h2),
    covers_two_pow]

theorem syndrome_replicate_false (n : Nat) : syndrome n (List.replicate n false) = 0 := by
  refine Nat.eq_of_testBit_eq fun i => ?_
  rw [testBit_syndrome (by simp), xorOver_replicate_false, Nat.zero_testBit]

/-- R112: a block whose one set bit is at position k has syndrome k. -/
theorem syndrome_of_one_bit {n k : Nat} {blk : Bits} (hl : blk.length = n) (h1 : 1 ≤ k) (h2 : k ≤ n)
    (h : ∀ j, bitAt blk j = decide (j = k)) : syndrome n blk = k := by
  have hblk : blk = flipAt (List.replicate n false) k :=
    eq_flipAt_of_bitAt (by simpa using hl) h1 (hl ▸ h2) fun j _ _ => by rw [h, bitAt_replicate_false, Bool.false_xor]
  rw [hblk, syndrome_flipAt (by simp) h1 h2, syndrome_replicate_false, Nat.zero_xor]

/-- R112: a block whose two set bits are at positions a and b has syndrome a ⊕ b. -/
theorem syndrome_of_two_bits {n a b : Nat} {blk : Bits} (hl : blk.length = n) (ha1 : 1 ≤ a) (ha2 : a ≤ n) (hb1 : 1 ≤ b)
    (hb2 : b ≤ n) (hab : a ≠ b) (h : ∀ j, bitAt blk j = decide (j = a ∨ j = b)) : syndrome n blk = a ^^^ b := by
  have hflip : syndrome n (flipAt blk b) = a := by
    refine syndrome_of_one_bit (by simpa using hl) ha1 ha2 fun j => ?_
    rw [bitAt_flipAt hb1 (hl ▸ hb2), h]
    rcases eq_or_ne j b with rfl | hjb
    · simp [hab.symm]
    · simp [hjb]
  rw [syndrome_flipAt hl hb1 hb2] at hflip
  rw [← hflip, Nat.xor_xor_cancel_right]

/-! ### The decode policy (R113) -/

/-- R113: a block whose syndrome is no position past its end. -/
theorem decodeBlock_of_le {n : Nat} {blk : Bits} (h : syndrome n blk ≤ n) :
    decodeBlock n blk =
      .ok (correctedBlock n blk, if syndrome n blk = 0 then none else some (syndrome n blk)) := by
  unfold decodeBlock correctedBlock
  by_cases h0 : syndrome n blk = 0 <;> simp [h0, h]

theorem decodeBlock_of_lt {n : Nat} {blk : Bits} (h : n < syndrome n blk) :
    decodeBlock n blk = .error (syndrome n blk) := by
  simp only [decodeBlock]
  rw [if_neg (by omega), if_neg (by omega)]

/-- R121: a syndrome past the block's end needs a length below 2^r − 1. -/
theorem lt_of_lt_syndrome {n : Nat} {blk : Bits} (h : n < syndrome n blk) : n < 2 ^ parityBits n - 1 := by
  have := syndrome_lt n blk
  omega

/-! ### Extraction (R114) -/

theorem extractFrom_map (f : Nat → Bool) (n : Nat) : ∀ k,
    extractFrom k ((List.range' k n).map f) = ((List.range' k n).filter (fun k => !isParityPos k)).map f := by
  induction n with
  | zero => intro k; rfl
  | succ n ih =>
    intro k
    rw [List.range'_succ, List.map_cons, extractFrom, ih, List.filter_cons]
    cases isParityPos k <;> simp

/-- R114: the extracted data is the bits at the data positions. -/
theorem extract_eq_map (blk : Bits) :
    extract blk = ((List.range' 1 blk.length).filter (fun k => !isParityPos k)).map (bitAt blk) := by
  rw [← extractFrom_map, map_bitAt, extract]

@[simp] theorem extract_length (blk : Bits) : (extract blk).length = dataLen blk.length := by
  rw [extract, extractFrom_length, countP_dataPos]

/-- R114: two blocks give the same data exactly when they agree at every data position. -/
theorem extract_eq_iff {a b : Bits} (hl : a.length = b.length) :
    extract a = extract b ↔ ∀ k, 1 ≤ k → k ≤ a.length → isParityPos k = false → bitAt a k = bitAt b k := by
  rw [extract_eq_map, extract_eq_map, ← hl, List.map_inj_left]
  simp only [List.mem_filter, List.mem_range'_1, Bool.not_eq_true', and_imp]
  exact forall_congr' fun k => forall_congr' fun _ => by rw [Nat.add_comm, Nat.lt_succ_iff]

/-- R114: a flip at a parity position changes no extracted bit. -/
theorem extract_flipAt_parityPos {blk : Bits} {k : Nat} (h1 : 1 ≤ k) (h2 : k ≤ blk.length) (hp : isParityPos k = true) :
    extract (flipAt blk k) = extract blk := by
  refine (extract_eq_iff (flipAt_length blk k)).mpr fun j _ _ hj => ?_
  have hjk : j ≠ k := by rintro rfl; simp [hp] at hj
  simp [bitAt_flipAt h1 h2, hjk]

/-! ### Encoding (R115, R118) -/

/-- Placing takes the data back out of the data positions. -/
theorem extractFrom_placeFrom (n : Nat) : ∀ (k : Nat) (d : Bits),
    d.length = (List.range' k n).countP (fun k => !isParityPos k) → extractFrom k (placeFrom k n d) = d := by
  induction n with
  | zero => intro k d hd; exact (List.length_eq_zero_iff.mp hd).symm
  | succ n ih =>
    intro k d hd
    rw [List.range'_succ, List.countP_cons] at hd
    rw [placeFrom]
    cases hk : isParityPos k with
    | true => simpa [hk, extractFrom] using ih (k + 1) d (by simpa [hk] using hd)
    | false =>
      obtain ⟨b, d, rfl⟩ := List.exists_cons_of_length_eq_add_one (by simpa [hk] using hd)
      simpa [hk, extractFrom] using ih (k + 1) d (by simpa [hk] using hd)

/-- The positions whose parity R115 writes to position 2^i: those of check i without 2^i itself. -/
def checkedBy (i : Nat) (k : Nat) : Bool := covers (2 ^ i) k && k != 2 ^ i

/-- R109: no check covers another's parity position. -/
theorem checkedBy_two_pow (i j : Nat) : checkedBy i (2 ^ j) = false := by
  rw [checkedBy, covers_two_pow, Nat.testBit_two_pow]
  by_cases hij : j = i <;> simp [hij]

theorem bitAt_writeParity {blk : Bits} {i : Nat} (hi : 2 ^ i ≤ blk.length) (k : Nat) :
    bitAt (writeParity blk i) k = if k = 2 ^ i then xorOver (checkedBy i) 1 blk else bitAt blk k :=
  bitAt_set Nat.one_le_two_pow hi _ k

/-- R115: the writing of a parity bit changes none of the parities that are written. -/
theorem xorOver_checkedBy_writeParity {blk : Bits} {i : Nat} (hi : 2 ^ i ≤ blk.length) (j : Nat) :
    xorOver (checkedBy j) 1 (writeParity blk i) = xorOver (checkedBy j) 1 blk := by
  have hpos := Nat.two_pow_pos i
  rw [writeParity, xorOver_set _ _ blk 1 (2 ^ i - 1) (by omega), Nat.add_sub_cancel' hpos, checkedBy_two_pow]
  simp

theorem extract_writeParity {blk : Bits} {i : Nat} (hi : 2 ^ i ≤ blk.length) :
    extract (writeParity blk i) = extract blk := by
  refine (extract_eq_iff (writeParity_length blk i)).mpr fun k _ _ hk => ?_
  have hne : k ≠ 2 ^ i := by rintro rfl; simp at hk
  rw [bitAt_writeParity hi, if_neg hne]

/-- R115's loop over the checks below `r`: the data stays, and the parity bits written so far are those of the block. -/
theorem foldl_writeParity (blk : Bits) {r : Nat} (hr : ∀ i, i < r → 2 ^ i ≤ blk.length) :
    ((List.range r).foldl writeParity blk).length = blk.length ∧
    extract ((List.range r).foldl writeParity blk) = extract blk ∧
    ∀ i, i < r → bitAt ((List.range r).foldl writeParity blk) (2 ^ i) =
      xorOver (checkedBy i) 1 ((List.range r).foldl writeParity blk) := by
  induction r with
  | zero => simp
  | succ r ih =>
    obtain ⟨hlen, hdata, hpar⟩ := ih fun i hi => hr i (by omega)
    simp only [List.range_succ, List.foldl_append, List.foldl_cons, List.foldl_nil]
    have hfits : 2 ^ r ≤ ((List.range r).foldl writeParity blk).length := hlen.ge.trans' (hr r (by omega))
    refine ⟨by rw [writeParity_length, hlen], by rw [extract_writeParity hfits, hdata], fun i hi => ?_⟩
    rw [bitAt_writeParity hfits, xorOver_checkedBy_writeParity hfits]
    rcases Nat.lt_succ_iff_lt_or_eq.mp hi with hlt | rfl
    · rw [if_neg (Nat.pow_right_injective le_rfl |>.ne hlt.ne), hpar i hlt]
    · rw [if_pos rfl]

/-- R118: an encoded block's data extracts back. -/
theorem extract_encodeBlock {n : Nat} {d : Bits} (hd : d.length = dataLen n) : extract (encodeBlock n d) = d := by
  obtain ⟨-, hdata, -⟩ := foldl_writeParity (placeFrom 1 n d) (r := parityBits n) fun i hi => by
    simpa using lt_parityBits_iff.mp hi
  rw [encodeBlock, hdata, extract, extractFrom_placeFrom n 1 d (hd.trans (countP_dataPos n).symm)]

/-- R115: an encoded block's parity bits. -/
theorem bitAt_encodeBlock_parityPos {n : Nat} (d : Bits) {i : Nat} (hi : i < parityBits n) :
    bitAt (encodeBlock n d) (2 ^ i) = xorOver (checkedBy i) 1 (encodeBlock n d) := by
  obtain ⟨-, -, hpar⟩ := foldl_writeParity (placeFrom 1 n d) (r := parityBits n) fun i hi => by
    simpa using lt_parityBits_iff.mp hi
  exact hpar i hi

/-- R118: each check of an encoded block is even. -/
theorem syndrome_encodeBlock (n : Nat) (d : Bits) : syndrome n (encodeBlock n d) = 0 := by
  refine Nat.eq_of_testBit_eq fun i => ?_
  rw [testBit_syndrome_eq_and, Nat.zero_testBit]
  by_cases hi : i < parityBits n
  · have hcov : covers (2 ^ i) (2 ^ i) = true := by simp [covers_two_pow]
    have hle : 2 ^ i ≤ (encodeBlock n d).length := by simpa using lt_parityBits_iff.mp hi
    have hsplit : xorOver (covers (2 ^ i)) 1 (encodeBlock n d) =
        (xorOver (checkedBy i) 1 (encodeBlock n d) ^^ (covers (2 ^ i) (2 ^ i) && bitAt (encodeBlock n d) (2 ^ i))) :=
      xorOver_eq_xor_bitAt _ Nat.one_le_two_pow hle
    rw [hsplit, hcov, Bool.true_and, bitAt_encodeBlock_parityPos d hi, Bool.xor_self, Bool.and_false]
  · simp [hi]

/-! ### Codewords and double errors (R120, R121) -/

/-- The XOR of two different powers of two is none. -/
theorem isParityPos_xor {a b : Nat} (ha : isParityPos a = true) (hb : isParityPos b = true) (hab : a ≠ b) :
    isParityPos (a ^^^ b) = false := by
  obtain ⟨i, rfl⟩ := isParityPos_iff.mp ha
  obtain ⟨j, rfl⟩ := isParityPos_iff.mp hb
  have hij : i ≠ j := fun h => hab (h ▸ rfl)
  refine Bool.eq_false_iff.mpr fun h => ?_
  obtain ⟨l, hl⟩ := isParityPos_iff.mp h
  have hbit (m : Nat) : (decide (i = m) ^^ decide (j = m)) = decide (l = m) := by
    simpa [Nat.testBit_two_pow] using congrArg (·.testBit m) hl
  have hli : l = i := by simpa [hij.symm] using hbit i
  have hlj : l = j := by simpa [hij] using hbit j
  exact hij (hli.symm.trans hlj)

/-- R120: after two flips and their miscorrection some data bit is wrong. -/
theorem extract_miscorrected_ne {e : Bits} {a b : Nat} (ha1 : 1 ≤ a) (ha2 : a ≤ e.length) (hb1 : 1 ≤ b)
    (hb2 : b ≤ e.length) (hab : a ≠ b) (hs : a ^^^ b ≤ e.length) :
    extract (flipAt (flipAt (flipAt e a) b) (a ^^^ b)) ≠ extract e := by
  have hs1 : 1 ≤ a ^^^ b := Nat.pos_of_ne_zero fun h => hab (Nat.xor_eq_zero_iff.mp h)
  have hsa : a ^^^ b ≠ a := fun h => by
    have : b = 0 := by simpa using congrArg (a ^^^ ·) h
    omega
  have hsb : a ^^^ b ≠ b := fun h => by
    have : a = 0 := by simpa using congrArg (· ^^^ b) h
    omega
  have hbits (k : Nat) : bitAt (flipAt (flipAt (flipAt e a) b) (a ^^^ b)) k =
      (((bitAt e k ^^ decide (k = a)) ^^ decide (k = b)) ^^ decide (k = a ^^^ b)) := by
    rw [bitAt_flipAt hs1 (by simpa using hs), bitAt_flipAt hb1 (by simpa using hb2), bitAt_flipAt ha1 ha2]
  intro h
  rw [extract_eq_iff (by simp)] at h
  simp only [flipAt_length, hbits] at h
  have hpa : isParityPos a = true := by
    by_contra hp
    simpa [hab, hsa.symm] using h a ha1 ha2 (Bool.eq_false_iff.mpr hp)
  have hpb : isParityPos b = true := by
    by_contra hp
    simpa [hab.symm, hsb.symm] using h b hb1 hb2 (Bool.eq_false_iff.mpr hp)
  simpa [hsa, hsb] using h _ hs1 hs (isParityPos_xor hpa hpb hab)

/-- R121: positions 2^q and 2^q − 1 have all q + 1 bits set between them. -/
theorem two_pow_xor_two_pow_sub_one (q : Nat) : 2 ^ q ^^^ (2 ^ q - 1) = 2 ^ (q + 1) - 1 := by
  refine Nat.eq_of_testBit_eq fun i => ?_
  rw [Nat.testBit_xor, Nat.testBit_two_pow, Nat.testBit_two_pow_sub_one, Nat.testBit_two_pow_sub_one]
  rcases Nat.lt_trichotomy i q with h | rfl | h
  · simp [h, h.ne', Nat.lt_succ_of_lt h]
  · simp
  · simp [h.ne, Nat.not_lt.mpr h.le, Nat.not_lt.mpr h]

/-- R121: where the two positions 2^(r−1) and 2^(r−1) − 1 lie. -/
theorem top_position_bounds {n : Nat} (hn : 3 ≤ n) :
    1 < parityBits n ∧ 2 ≤ 2 ^ (parityBits n - 1) ∧ 2 ^ (parityBits n - 1) ≤ n := by
  have hr : 1 < parityBits n := lt_parityBits_iff.mpr (by omega)
  exact ⟨hr, Nat.le_self_pow (by omega) 2, lt_parityBits_iff.mp (by omega)⟩

/-- R121: the block with its two set bits at 2^(r−1) and 2^(r−1) − 1. -/
theorem syndrome_of_top_two_bits {n : Nat} {blk : Bits} (hn : 3 ≤ n) (hl : blk.length = n)
    (h : ∀ k, bitAt blk k = decide (k = 2 ^ (parityBits n - 1) ∨ k = 2 ^ (parityBits n - 1) - 1)) :
    syndrome n blk = 2 ^ parityBits n - 1 := by
  obtain ⟨hr, hbig, htop⟩ := top_position_bounds hn
  rw [syndrome_of_two_bits hl (by omega) htop (by omega) (by omega) (by omega) h, two_pow_xor_two_pow_sub_one,
    Nat.sub_add_cancel hr.le]

/-- R121: there is a block with its set bits at 2^(r−1) and 2^(r−1) − 1. -/
theorem exists_top_two_bits {n : Nat} (hn : 3 ≤ n) : ∃ blk : Bits, blk.length = n ∧
    ∀ k, bitAt blk k = decide (k = 2 ^ (parityBits n - 1) ∨ k = 2 ^ (parityBits n - 1) - 1) := by
  obtain ⟨-, hbig, htop⟩ := top_position_bounds hn
  refine ⟨flipAt (flipAt (List.replicate n false) (2 ^ (parityBits n - 1) - 1)) (2 ^ (parityBits n - 1)), by simp,
    fun k => ?_⟩
  rw [bitAt_flipAt (by omega) (by simpa using htop), bitAt_flipAt (by omega) (by simp; omega), bitAt_replicate_false]
  have hne : 2 ^ (parityBits n - 1) ≠ 2 ^ (parityBits n - 1) - 1 := by omega
  by_cases hk : k = 2 ^ (parityBits n - 1) <;> simp [hk, hne]

/-- R121: n is below 2^r − 1 exactly when it is of no such form. -/
theorem lt_two_pow_parityBits_sub_one_iff (n : Nat) : n < 2 ^ parityBits n - 1 ↔ ¬ ∃ r, n = 2 ^ r - 1 := by
  have hlt := lt_two_pow_parityBits n
  refine ⟨?_, fun h => ?_⟩
  · rintro h ⟨r, rfl⟩
    rw [parityBits_two_pow_sub_one] at h
    exact lt_irrefl _ h
  · have hne : n ≠ 2 ^ parityBits n - 1 := fun he => h ⟨_, he⟩
    omega

end Sys2Proof.Machine

namespace Sys2Proof.Proofs

open Sys2Proof.Machine Sys2Proof.Claims

/-- Settles O39: r(n) ≤ r means n + 1 ≤ 2^r, and each entry of the table by the powers of two around n. -/
theorem parityCountIsLeast : Obligations.ParityCountIsLeast := by
  refine ⟨lt_two_pow_parityBits, fun n r => parityBits_le_iff.mpr, fun n => parityBits_le_iff.mpr,
    fun n => parityBits_eq_log, fun n => ⟨rfl, parityBits_le_self n⟩, fun n => dataLen_pos,
    fun n n' h => dataLen_mono h, fun p hp => ?_⟩
  obtain ⟨h1, h2, h3⟩ : (p.2.1 = 0 ∨ 2 ^ (p.2.1 - 1) ≤ p.1) ∧ p.1 < 2 ^ p.2.1 ∧ p.1 - p.2.1 = p.2.2 := by
    revert p
    decide
  have hr := parityBits_eq_of_bounds h1 h2
  exact ⟨hr, by rw [dataLen, hr, h3]⟩

/-- Settles O40: 2^i ≤ n means i < r(n), and the positions counted up to n. -/
theorem parityPositionsArePowersOfTwo : Obligations.ParityPositionsArePowersOfTwo := by
  refine ⟨fun k _ => isParityPos_iff, fun n k _ hk => isParityPos_iff.trans ⟨?_, ?_⟩, countP_isParityPos,
    countP_dataPos⟩
  · rintro ⟨i, rfl⟩
    exact ⟨i, lt_parityBits_iff.mpr hk, rfl⟩
  · rintro ⟨i, -, hi⟩
    exact ⟨i, hi⟩

/-- Settles O41, by the bits of the syndrome. -/
theorem syndromeIsXorOfSetPositions : Obligations.SyndromeIsXorOfSetPositions := fun _ _ hl =>
  ⟨syndrome_eq_foldl_xor hl, fun _ => syndrome_flipAt hl, fun _ => syndrome_of_one_bit hl⟩

/-- Settles O42, by the three cases of the syndrome. -/
theorem blockDecodePolicy : Obligations.BlockDecodePolicy := by
  intro n blk hl
  refine ⟨fun h0 => ?_, fun h1 h2 => ⟨flipAt blk (syndrome n blk), ?_, by simpa using hl, fun k _ _ => ?_⟩,
    fun h => ⟨decodeBlock_of_lt h, ?_, lt_of_lt_syndrome h⟩⟩
  · simp [decodeBlock_of_le (h0.trans_le (Nat.zero_le n)), correctedBlock, h0]
  · simp [decodeBlock_of_le h2, correctedBlock, Nat.one_le_iff_ne_zero.mp h1]
  · exact bitAt_flipAt h1 (hl ▸ h2) k
  · exact Nat.le_sub_one_of_lt (syndrome_lt n blk)

/-- Settles O43: the data by positions, so its length is their number. -/
theorem extractionTakesDataPositions : Obligations.ExtractionTakesDataPositions := by
  rintro n blk rfl
  exact ⟨extract_eq_map blk, extract_length blk, fun k => extract_flipAt_parityPos⟩

/-- Settles O44, by what the loop over the checks keeps and writes. -/
theorem encodedBlockIsACodeword : Obligations.EncodedBlockIsACodeword := by
  intro n d hd
  refine ⟨encodeBlock_length n d, extract_encodeBlock hd, fun i hi => ?_, syndrome_encodeBlock n d⟩
  have hsel : checkedBy i = fun k => decide (k &&& 2 ^ i ≠ 0 ∧ k ≠ 2 ^ i) := by
    funext k
    exact Bool.eq_iff_iff.mpr (by simp [checkedBy, covers])
  rw [bitAt_encodeBlock_parityPos d hi, xorOver_eq_foldl, encodeBlock_length, hsel]

/-- Settles O45: the syndrome of two flips, and a data position among the three flipped ones. -/
theorem doubleErrorsMiscorrectOrFail : Obligations.DoubleErrorsMiscorrectOrFail := by
  intro n d a b _ hd ha1 ha2 hb1 hb2 hab blk
  have hl := encodeBlock_length n d
  have hs : syndrome n blk = a ^^^ b := by
    rw [syndrome_flipAt (by simp) hb1 hb2, syndrome_flipAt hl ha1 ha2, syndrome_encodeBlock, Nat.zero_xor]
  have h0 : a ^^^ b ≠ 0 := fun h => hab (Nat.xor_eq_zero_iff.mp h)
  refine ⟨hs, h0, fun hle => ⟨?_, fun hx => ?_⟩, fun hlt => ?_⟩
  · rw [decodeBlock_of_le (hs.trans_le hle), correctedBlock, hs, if_neg h0, if_neg h0]
  · rw [← hl] at ha2 hb2 hle
    exact extract_miscorrected_ne ha1 ha2 hb1 hb2 hab hle (hx.trans (extract_encodeBlock hd).symm)
  · rw [decodeBlock_of_lt (hlt.trans_eq hs.symm), hs]

/-- Settles O46, by the block with the two highest adjacent positions set. -/
theorem uncorrectableExactlyOffPerfectLengths : Obligations.UncorrectableExactlyOffPerfectLengths := by
  refine ⟨fun n hn => ?_, by decide⟩
  have htop {blk : Bits} (hlt : n < 2 ^ parityBits n - 1) (hl : blk.length = n)
      (h : ∀ k, bitAt blk k = decide (k = 2 ^ (parityBits n - 1) ∨ k = 2 ^ (parityBits n - 1) - 1)) :
      decodeBlock n blk = .error (2 ^ parityBits n - 1) := by
    have hs := syndrome_of_top_two_bits hn hl h
    rw [decodeBlock_of_lt (hlt.trans_eq hs.symm), hs]
  refine ⟨⟨?_, fun hlt => ?_⟩, lt_two_pow_parityBits_sub_one_iff n, fun hlt blk => htop hlt⟩
  · rintro ⟨blk, s, -, he⟩
    obtain ⟨rfl, hs⟩ := decodeBlock_error he
    exact lt_of_lt_syndrome hs
  · obtain ⟨blk, hl, h⟩ := exists_top_two_bits hn
    exact ⟨blk, _, hl, htop hlt hl h⟩

end Sys2Proof.Proofs
end

section
/-! SUPPORT. The streams and commands of hamming_sec_decoder (41_hamming_sec_decoder.md R116, R117, R119): a stream by
its blocks, the result of each command, and the round trip. -/

namespace Sys2Proof.Machine

open Sys2Proof.Claims

/-! ### A stream by its blocks (R110) -/

theorem chunk_zero (x : Bits) (n : Nat) : chunk x n 0 = x.take n := by simp [chunk]

theorem chunk_succ (x : Bits) (n b : Nat) : chunk x n (b + 1) = chunk (x.drop n) n b := by
  rw [chunk, chunk, List.drop_drop, Nat.succ_mul, Nat.add_comm]

theorem chunk_length {x : Bits} {n cnt b : Nat} (hx : x.length = cnt * n) (hb : b < cnt) :
    (chunk x n b).length = n := by
  have : (b + 1) * n ≤ cnt * n := Nat.mul_le_mul_right n hb
  rw [Nat.succ_mul] at this
  rw [chunk, List.length_take, List.length_drop]
  omega

theorem flatMap_chunk (n : Nat) : ∀ (cnt : Nat) (x : Bits), x.length = cnt * n →
    (List.range cnt).flatMap (chunk x n) = x
  | 0, x, hx => by simpa [eq_comm] using hx
  | cnt + 1, x, hx => by
    rw [Nat.succ_mul] at hx
    rw [List.range_succ_eq_map, List.flatMap_cons, List.flatMap_map, chunk_zero]
    simp only [chunk_succ]
    rw [flatMap_chunk n cnt (x.drop n) (by rw [List.length_drop]; omega), List.take_append_drop]

/-- R110: position k of block b is stream bit b·n + k − 1. -/
theorem bitAt_chunk (x : Bits) {n k : Nat} (b : Nat) (h1 : 1 ≤ k) (h2 : k ≤ n) :
    bitAt (chunk x n b) k = x.getD (b * n + (k - 1)) false := by
  simp [bitAt, chunk, show k ≠ 0 by omega, List.getD_eq_getElem?_getD, show k - 1 < n by omega]

theorem inputBits_eq_bufSeq (s : State) (len : Nat) : bufSeq (inBit s) 0 len = inputBits s len := by
  rw [bufSeq, inputBits, List.range_eq_range', Nat.sub_zero]

@[simp] theorem inputBits_length (s : State) (len : Nat) : (inputBits s len).length = len := by simp [inputBits]

theorem inputBits_getD (s : State) {len j : Nat} (hj : j < len) : (inputBits s len).getD j false = inBit s j := by
  simp [inputBits, hj]

/-! ### Streams of blocks (R116, R117) -/

theorem decodedData_succ (n cnt : Nat) (x : Bits) :
    decodedData n (cnt + 1) x = extract (correctedBlock n (x.take n)) ++ decodedData n cnt (x.drop n) := by
  rw [decodedData, List.range_succ_eq_map, List.flatMap_cons, List.flatMap_map, chunk_zero]
  simp only [chunk_succ, decodedData]

theorem decodedCorrections_succ (n cnt : Nat) (x : Bits) :
    decodedCorrections n (cnt + 1) x =
      ((if syndrome n (x.take n) = 0 then none else some (syndrome n (x.take n))).toList.map fun p => (0, p)) ++
        (decodedCorrections n cnt (x.drop n)).map fun c => (c.1 + 1, c.2) := by
  rw [decodedCorrections, List.range_succ_eq_map, List.filterMap_cons, List.filterMap_map, chunk_zero,
    decodedCorrections, List.map_filterMap]
  have htail : (fun b => if syndrome n (chunk x n b) = 0 then none else some (b, syndrome n (chunk x n b))) ∘ Nat.succ =
      fun b => (if syndrome n (chunk (x.drop n) n b) = 0 then none
        else some (b, syndrome n (chunk (x.drop n) n b))).map fun c => (c.1 + 1, c.2) := by
    funext b
    simp only [Function.comp_apply, Nat.succ_eq_add_one, chunk_succ]
    split <;> rfl
  rw [htail]
  by_cases h0 : syndrome n (x.take n) = 0 <;> simp [h0]

/-- R116: a stream all of whose blocks are correctable. -/
theorem decodeBlocks_ok (n : Nat) : ∀ (cnt b : Nat) (x : Bits), (∀ c, c < cnt → syndrome n (chunk x n c) ≤ n) →
    decodeBlocks n b cnt x = .ok (decodedData n cnt x, (decodedCorrections n cnt x).map fun c => (b + c.1, c.2))
  | 0, _, _, _ => rfl
  | cnt + 1, b, x, h => by
    have hfirst : syndrome n (x.take n) ≤ n := chunk_zero x n ▸ h 0 (Nat.succ_pos _)
    have hrest := decodeBlocks_ok n cnt (b + 1) (x.drop n) fun c hc =>
      chunk_succ x n c ▸ h (c + 1) (Nat.succ_lt_succ hc)
    simp only [decodeBlocks, decodeBlock_of_le hfirst, hrest, decodedData_succ, decodedCorrections_succ,
      List.map_append, List.map_map]
    congr 3
    refine List.map_congr_left fun c _ => ?_
    simp [Nat.add_right_comm, Nat.add_assoc]

/-- R116: a stream fails on its lowest block that is not correctable. -/
theorem decodeBlocks_error_of_lowest (n : Nat) : ∀ (cnt b e : Nat) (x : Bits), e < cnt → n < syndrome n (chunk x n e) →
    (∀ c, c < e → syndrome n (chunk x n c) ≤ n) →
    decodeBlocks n b cnt x = .error (b + e, syndrome n (chunk x n e))
  | 0, _, _, _, he, _, _ => absurd he (Nat.not_lt_zero _)
  | cnt + 1, b, 0, x, _, hs, _ => by
    rw [chunk_zero] at hs ⊢
    simp only [decodeBlocks, decodeBlock_of_lt hs, Nat.add_zero]
  | cnt + 1, b, e + 1, x, he, hs, hc => by
    have hfirst : syndrome n (x.take n) ≤ n := chunk_zero x n ▸ hc 0 (Nat.succ_pos _)
    rw [chunk_succ] at hs ⊢
    have hrest := decodeBlocks_error_of_lowest n cnt (b + 1) e (x.drop n) (Nat.lt_of_succ_lt_succ he) hs
      fun c h => chunk_succ x n c ▸ hc (c + 1) (Nat.succ_lt_succ h)
    simp only [decodeBlocks, decodeBlock_of_le hfirst, hrest, Nat.add_assoc, Nat.add_comm 1 e]

@[simp] theorem correctedBlock_length (n : Nat) (blk : Bits) : (correctedBlock n blk).length = blk.length := by
  unfold correctedBlock
  split <;> simp

/-- R116: a stream of cnt blocks has cnt · m(n) data bits. -/
theorem decodedData_length {n cnt : Nat} {x : Bits} (hx : x.length = cnt * n) :
    (decodedData n cnt x).length = cnt * dataLen n := by
  have hblock : ∀ b ∈ List.range cnt, (extract (correctedBlock n (chunk x n b))).length = dataLen n := fun b hb => by
    rw [extract_length, correctedBlock_length, chunk_length hx (List.mem_range.mp hb)]
  rw [decodedData, List.length_flatMap, List.map_congr_left hblock]
  simp

theorem encodeBlocks_eq_flatMap (n : Nat) : ∀ (cnt : Nat) (x : Bits),
    encodeBlocks n cnt x = (List.range cnt).flatMap fun g => encodeBlock n (chunk x (dataLen n) g)
  | 0, _ => rfl
  | cnt + 1, x => by
    rw [encodeBlocks, encodeBlocks_eq_flatMap n cnt, List.range_succ_eq_map, List.flatMap_cons, List.flatMap_map,
      chunk_zero]
    simp only [chunk_succ]

/-- R117: block b of an encoded stream is the encoded group b. -/
theorem chunk_encodeBlocks (n : Nat) : ∀ (cnt b : Nat) (x : Bits), b < cnt →
    chunk (encodeBlocks n cnt x) n b = encodeBlock n (chunk x (dataLen n) b)
  | 0, _, _, hb => absurd hb (Nat.not_lt_zero _)
  | cnt + 1, 0, x, _ => by
    rw [chunk_zero, chunk_zero, encodeBlocks, List.take_left' (encodeBlock_length n _)]
  | cnt + 1, b + 1, x, hb => by
    rw [chunk_succ, chunk_succ, encodeBlocks, List.drop_left' (encodeBlock_length n _),
      chunk_encodeBlocks n cnt b _ (Nat.lt_of_succ_lt_succ hb)]

/-! ### The commands (R116, R117) -/

/-- R96: a command without error answers with its outputs. -/
theorem exec_succeeded {i : Instr} {s : State} {o : CmdOutput} (hp : s.params.legal = true)
    (hr : resultOf i s = .ok o) :
    ∃ t, exec i s = .next t ∧ Succeeded s t o.out o.corr o.rem o.remLen o.valid := by
  have hfits := resultOf_fits hr
  exact ⟨_, by rw [exec_eq_complete, hr], complete_succeeded hp hfits.out hfits.corr⟩

/-- R159: a command with an error answers with its code and fields. -/
theorem exec_errored {i : Instr} {s : State} {e : CmdError} (hp : s.params.legal = true)
    (hr : resultOf i s = .error e) :
    ∃ t, exec i s = .next t ∧ Errored s t (errCodeOf e.kind).toNat e.block e.syndrome e.n e.len :=
  ⟨_, by rw [exec_eq_complete, hr], complete_errored hp⟩

section
variable {maxBits n len : Nat} {buf : Nat → Bool}

theorem hamDecode_capacityExceeded (h : maxBits < len) :
    hamDecode maxBits n len buf = .error { kind := .capacityExceeded, len := len, n := n } := if_pos h

theorem hamDecode_badParam (hcap : len ≤ maxBits) (hn : n < 3) :
    hamDecode maxBits n len buf = .error { kind := .badParam, len := len, n := n } := by
  rw [hamDecode, if_neg (Nat.not_lt.mpr hcap), if_pos hn]

theorem hamDecode_lengthMismatch (hcap : len ≤ maxBits) (hn : 3 ≤ n) (hmod : len % n ≠ 0) :
    hamDecode maxBits n len buf = .error { kind := .lengthMismatch, len := len, n := n } := by
  rw [hamDecode, if_neg (Nat.not_lt.mpr hcap), if_neg (Nat.not_lt.mpr hn), if_pos hmod]

/-- R116: past the checks, with a block that fails. -/
theorem hamDecode_uncorrectable {b s : Nat} (hcap : len ≤ maxBits) (hn : 3 ≤ n) (hmod : len % n = 0)
    (hx : decodeBlocks n 0 (len / n) (bufSeq buf 0 len) = .error (b, s)) :
    hamDecode maxBits n len buf =
      .error { kind := .uncorrectableBlock, block := b + 1, syndrome := s, n := n, len := len } := by
  rw [hamDecode, if_neg (Nat.not_lt.mpr hcap), if_neg (Nat.not_lt.mpr hn), if_neg (not_not_intro hmod), hx]

/-- R116: past the checks, with a stream that decodes. -/
theorem hamDecode_ok {data : Bits} {corr : List (Nat × Nat)} (hcap : len ≤ maxBits) (hn : 3 ≤ n) (hmod : len % n = 0)
    (hx : decodeBlocks n 0 (len / n) (bufSeq buf 0 len) = .ok (data, corr)) :
    hamDecode maxBits n len buf = .ok { out := data, corr := corr } := by
  rw [hamDecode, if_neg (Nat.not_lt.mpr hcap), if_neg (Nat.not_lt.mpr hn), if_neg (not_not_intro hmod), hx]

theorem hamEncode_capacityExceeded_input (h : maxBits < len) :
    hamEncode maxBits n len buf = .error { kind := .capacityExceeded, len := len, n := n } := if_pos h

theorem hamEncode_badParam (hcap : len ≤ maxBits) (hn : n < 3) :
    hamEncode maxBits n len buf = .error { kind := .badParam, len := len, n := n } := by
  rw [hamEncode, if_neg (Nat.not_lt.mpr hcap), if_pos hn]

theorem hamEncode_lengthMismatch (hcap : len ≤ maxBits) (hn : 3 ≤ n) (hmod : len % dataLen n ≠ 0) :
    hamEncode maxBits n len buf = .error { kind := .lengthMismatch, len := len, n := n } := by
  rw [hamEncode, if_neg (Nat.not_lt.mpr hcap), if_neg (Nat.not_lt.mpr hn), if_pos hmod]

theorem hamEncode_capacityExceeded_output (hcap : len ≤ maxBits) (hn : 3 ≤ n) (hmod : len % dataLen n = 0)
    (hout : maxBits < len / dataLen n * n) :
    hamEncode maxBits n len buf = .error { kind := .capacityExceeded, len := len, n := n } := by
  rw [hamEncode, if_neg (Nat.not_lt.mpr hcap), if_neg (Nat.not_lt.mpr hn), if_neg (not_not_intro hmod), if_pos hout]

theorem hamEncode_ok (hcap : len ≤ maxBits) (hn : 3 ≤ n) (hmod : len % dataLen n = 0)
    (hout : len / dataLen n * n ≤ maxBits) :
    hamEncode maxBits n len buf = .ok { out := encodeBlocks n (len / dataLen n) (bufSeq buf 0 len) } := by
  rw [hamEncode, if_neg (Nat.not_lt.mpr hcap), if_neg (Nat.not_lt.mpr hn), if_neg (not_not_intro hmod),
    if_neg (Nat.not_lt.mpr hout)]

end

section
variable {s : State} (hp : s.params.legal = true) (hcap : s.inLen.toNat ≤ s.params.maxBits) (hn : 3 ≤ s.n.toNat)
include hp hcap hn

/-- R116: HAM_DECODE on a stream of correctable blocks. -/
theorem exec_hamDecode_succeeded (hmod : s.inLen.toNat % s.n.toNat = 0)
    (hs : ∀ b, b < s.inLen.toNat / s.n.toNat →
      syndrome s.n.toNat (chunk (inputBits s s.inLen.toNat) s.n.toNat b) ≤ s.n.toNat) :
    ∃ t, exec .hamDecode s = .next t ∧
      Succeeded s t (decodedData s.n.toNat (s.inLen.toNat / s.n.toNat) (inputBits s s.inLen.toNat))
        (decodedCorrections s.n.toNat (s.inLen.toNat / s.n.toNat) (inputBits s s.inLen.toNat)) 0 0 false := by
  have hx := decodeBlocks_ok s.n.toNat _ 0 _ hs
  simp only [Nat.zero_add, Prod.mk.eta, List.map_id'] at hx
  rw [← inputBits_eq_bufSeq] at hx ⊢
  exact exec_succeeded (i := .hamDecode) hp (hamDecode_ok hcap hn hmod hx)

/-- R117: HAM_ENCODE on an input that fits. -/
theorem exec_hamEncode_succeeded (hmod : s.inLen.toNat % dataLen s.n.toNat = 0)
    (hout : s.inLen.toNat / dataLen s.n.toNat * s.n.toNat ≤ s.params.maxBits) :
    ∃ t, exec .hamEncode s = .next t ∧
      Succeeded s t (encodeBlocks s.n.toNat (s.inLen.toNat / dataLen s.n.toNat) (inputBits s s.inLen.toNat)) []
        0 0 false := by
  rw [← inputBits_eq_bufSeq]
  exact exec_succeeded (i := .hamEncode) hp (hamEncode_ok hcap hn hmod hout)

end

/-! ### The round trip (R119) -/

theorem flipAt_flipAt {blk : Bits} {k : Nat} (h1 : 1 ≤ k) (h2 : k ≤ blk.length) : flipAt (flipAt blk k) k = blk := by
  refine eq_of_bitAt (by simp) fun j _ _ => ?_
  rw [bitAt_flipAt h1 (by simpa using h2), bitAt_flipAt h1 h2, Bool.xor_assoc, Bool.xor_self, Bool.xor_false]

/-- R119: an encoded block with at most one flipped position, those for which `F` holds, is corrected, and its syndrome
is that position. -/
theorem correct_encodeBlock {n : Nat} {d blk : Bits} {F : Nat → Prop} [DecidablePred F] (hl : blk.length = n)
    (hrange : ∀ k, F k → 1 ≤ k ∧ k ≤ n) (hone : ∀ k k', F k → F k' → k' = k)
    (hbits : ∀ k, 1 ≤ k → k ≤ n → bitAt blk k = (bitAt (encodeBlock n d) k ^^ decide (F k))) :
    syndrome n blk ≤ n ∧ correctedBlock n blk = encodeBlock n d ∧
      ∀ k, F k ↔ syndrome n blk ≠ 0 ∧ syndrome n blk = k := by
  have hlen := encodeBlock_length n d
  by_cases hF : ∃ k, F k
  · obtain ⟨k, hk⟩ := hF
    obtain ⟨h1, h2⟩ := hrange k hk
    have hblk : blk = flipAt (encodeBlock n d) k := by
      refine eq_flipAt_of_bitAt (hl.trans hlen.symm) h1 (hl ▸ h2) fun j hj1 hj2 => ?_
      have hj : F j ↔ j = k := ⟨hone k j hk, fun h => h ▸ hk⟩
      rw [hbits j hj1 (hl ▸ hj2), decide_eq_decide.mpr hj]
    have hs : syndrome n blk = k := by
      rw [hblk, syndrome_flipAt hlen h1 h2, syndrome_encodeBlock, Nat.zero_xor]
    refine ⟨hs.trans_le h2, ?_, fun j => ?_⟩
    · rw [correctedBlock, hs, if_neg (by omega), hblk, flipAt_flipAt h1 (hlen.symm ▸ h2)]
    · rw [hs]
      exact ⟨fun hj => ⟨by omega, (hone k j hk hj).symm⟩, fun ⟨_, hj⟩ => hj ▸ hk⟩
  · have hno (k : Nat) : ¬ F k := fun hk => hF ⟨k, hk⟩
    have hblk : blk = encodeBlock n d := by
      refine eq_of_bitAt (hl.trans hlen.symm) fun j hj1 hj2 => ?_
      rw [hbits j hj1 (hl ▸ hj2), decide_eq_false (hno j), Bool.xor_false]
    have hs : syndrome n blk = 0 := hblk ▸ syndrome_encodeBlock n d
    refine ⟨hs.trans_le (Nat.zero_le n), ?_, fun k => ?_⟩
    · rw [correctedBlock, if_pos hs, hblk]
    · simp [hs, hno k]

theorem mem_decodedCorrections {n cnt : Nat} {x : Bits} {f : Nat × Nat} :
    f ∈ decodedCorrections n cnt x ↔
      f.1 < cnt ∧ syndrome n (chunk x n f.1) ≠ 0 ∧ syndrome n (chunk x n f.1) = f.2 := by
  obtain ⟨b, k⟩ := f
  simp only [decodedCorrections, List.mem_filterMap, List.mem_range, Option.ite_none_left_eq_some, Option.some.injEq,
    Prod.mk.injEq]
  constructor
  · rintro ⟨b, hb, h0, rfl, hk⟩
    exact ⟨hb, h0, hk⟩
  · rintro ⟨hb, h0, hk⟩
    exact ⟨b, hb, h0, rfl, hk⟩

/-- Reports whose blocks rise are the same when they have the same entries. -/
theorem eq_of_rising_blocks {l l' : List (Nat × Nat)} (hl : (l.map Prod.fst).Pairwise (· < ·))
    (hl' : (l'.map Prod.fst).Pairwise (· < ·)) (h : ∀ f, f ∈ l ↔ f ∈ l') : l = l' := by
  have : Std.Irrefl fun f g : Nat × Nat => f.1 < g.1 := ⟨fun f => lt_irrefl f.1⟩
  have : Std.Antisymm fun f g : Nat × Nat => f.1 < g.1 := ⟨fun f g h h' => absurd h h'.asymm⟩
  exact (List.pairwise_map.mp hl).eq_of_mem_iff (List.pairwise_map.mp hl') h

/-- R116: the report names the blocks in ascending order. -/
theorem decodedCorrections_rising (n cnt : Nat) (x : Bits) :
    ((decodedCorrections n cnt x).map Prod.fst).Pairwise (· < ·) := by
  refine List.pairwise_map.mpr (List.pairwise_lt_range.filterMap _ fun b b' hb f hf f' hf' => ?_)
  simp only [Option.ite_none_left_eq_some, Option.some.injEq] at hf hf'
  obtain ⟨-, rfl⟩ := hf
  obtain ⟨-, rfl⟩ := hf'
  exact hb

/-- A report whose blocks rise names each block at most once. -/
theorem position_unique {flips : List (Nat × Nat)} (hf : (flips.map Prod.fst).Pairwise (· < ·)) {b k k' : Nat}
    (hk : (b, k) ∈ flips) (hk' : (b, k') ∈ flips) : k' = k :=
  congrArg Prod.snd (List.inj_on_of_nodup_map (hf.imp ne_of_lt) hk' hk rfl)

/-- R119: an encoded stream `y` with at most one flipped bit in each block decodes to the data and reports the flips. -/
theorem decode_encodeBlocks {n cnt : Nat} {x y : Bits} {flips : List (Nat × Nat)} (hx : x.length = cnt * dataLen n)
    (hy : y.length = cnt * n) (hrise : (flips.map Prod.fst).Pairwise (· < ·))
    (hrange : ∀ f ∈ flips, f.1 < cnt ∧ 1 ≤ f.2 ∧ f.2 ≤ n)
    (hbits : ∀ j, j < cnt * n →
      y.getD j false = ((encodeBlocks n cnt x).getD j false ^^ decide ((j / n, j % n + 1) ∈ flips))) :
    (∀ b, b < cnt → syndrome n (chunk y n b) ≤ n) ∧ decodedData n cnt y = x ∧ decodedCorrections n cnt y = flips := by
  have hblock (b : Nat) (hb : b < cnt) : syndrome n (chunk y n b) ≤ n ∧
      correctedBlock n (chunk y n b) = encodeBlock n (chunk x (dataLen n) b) ∧
      ∀ k, (b, k) ∈ flips ↔ syndrome n (chunk y n b) ≠ 0 ∧ syndrome n (chunk y n b) = k :=
    correct_encodeBlock (chunk_length hy hb) (fun k hk => (hrange _ hk).2) (fun k k' => position_unique hrise)
      fun k h1 h2 => by
        have hdiv : (b * n + (k - 1)) / n = b := by
          rw [Nat.mul_comm, Nat.mul_add_div (by omega), Nat.div_eq_of_lt (by omega), Nat.add_zero]
        have hmod : (b * n + (k - 1)) % n + 1 = k := by
          rw [Nat.mul_comm, Nat.mul_add_mod, Nat.mod_eq_of_lt (by omega)]
          omega
        have hj : b * n + (k - 1) < cnt * n := by
          have := Nat.mul_le_mul_right n (Nat.succ_le_of_lt hb)
          rw [Nat.succ_mul] at this
          omega
        rw [← chunk_encodeBlocks n cnt b x hb, bitAt_chunk _ _ h1 h2, bitAt_chunk _ _ h1 h2, hbits _ hj, hdiv, hmod]
  refine ⟨fun b hb => (hblock b hb).1, ?_, eq_of_rising_blocks (decodedCorrections_rising n cnt y) hrise fun f => ?_⟩
  · have hdata : ∀ b ∈ List.range cnt, extract (correctedBlock n (chunk y n b)) = chunk x (dataLen n) b := by
      intro b hb
      rw [List.mem_range] at hb
      obtain ⟨-, hcorrected, -⟩ := hblock b hb
      rw [hcorrected, extract_encodeBlock (chunk_length hx hb)]
    rw [decodedData, List.flatMap_congr hdata, flatMap_chunk _ _ _ hx]
  · have hflip (hb : f.1 < cnt) : f ∈ flips ↔ syndrome n (chunk y n f.1) ≠ 0 ∧ syndrome n (chunk y n f.1) = f.2 := by
      obtain ⟨-, -, hreport⟩ := hblock f.1 hb
      exact hreport f.2
    rw [mem_decodedCorrections]
    exact ⟨fun ⟨hb, hs⟩ => (hflip hb).mpr hs, fun hf => ⟨(hrange f hf).1, (hflip (hrange f hf).1).mp hf⟩⟩

end Sys2Proof.Machine

namespace Sys2Proof.Proofs

open Sys2Proof.Machine Sys2Proof.Claims

/-- Settles O47, by induction over the blocks of the stream. -/
theorem hamDecodeCompletes : Obligations.HamDecodeCompletes := by
  intro s hp hcap hn hmod hs
  obtain ⟨t, ht, hsucc⟩ := exec_hamDecode_succeeded hp hcap hn hmod hs
  refine ⟨t, ht, hsucc, decodedData_length ?_⟩
  rw [inputBits_length, Nat.div_mul_cancel (Nat.dvd_of_mod_eq_zero hmod)]

/-- Settles O48: the checks in their order, then the lowest block that fails. -/
theorem hamDecodeErrors : Obligations.HamDecodeErrors := by
  intro s hp
  have errs {e : CmdError} (he : hamDecode s.params.maxBits s.n.toNat s.inLen.toNat (inBit s) = .error e) :=
    exec_errored (i := .hamDecode) hp he
  refine ⟨fun h => errs (hamDecode_capacityExceeded h), fun hcap hn => errs (hamDecode_badParam hcap hn),
    fun hcap hn hmod => errs (hamDecode_lengthMismatch hcap hn hmod), fun hcap hn hmod b hb hs hlow => ?_⟩
  have hx := decodeBlocks_error_of_lowest s.n.toNat _ 0 b _ hb hs hlow
  rw [Nat.zero_add, ← inputBits_eq_bufSeq] at hx
  rw [← inputBits_eq_bufSeq]
  exact errs (hamDecode_uncorrectable hcap hn hmod hx)

/-- Settles O49: the encoded groups one after another, n bits each. -/
theorem hamEncodeCompletes : Obligations.HamEncodeCompletes := by
  intro s hp hcap hn hmod hout
  obtain ⟨t, ht, hsucc⟩ := exec_hamEncode_succeeded hp hcap hn hmod hout
  refine ⟨t, ht, ?_, ?_⟩
  · rwa [← encodeBlocks_eq_flatMap]
  · rw [hsucc.outLen, encodeBlocks_length]

/-- Settles O50: the checks in their order. -/
theorem hamEncodeErrors : Obligations.HamEncodeErrors := by
  intro s hp
  have errs {e : CmdError} (he : hamEncode s.params.maxBits s.n.toNat s.inLen.toNat (inBit s) = .error e) :=
    exec_errored (i := .hamEncode) hp he
  exact ⟨fun h => errs (hamEncode_capacityExceeded_input h), fun hcap hn => errs (hamEncode_badParam hcap hn),
    fun hcap hn hmod => errs (hamEncode_lengthMismatch hcap hn hmod),
    fun hcap hn hmod hout => errs (hamEncode_capacityExceeded_output hcap hn hmod hout)⟩

/-- Settles O51: the input of HAM_DECODE is the encoded stream with the flips. -/
theorem hammingRoundTripCorrectsOneFlipPerBlock : Obligations.HammingRoundTripCorrectsOneFlipPerBlock := by
  intro s flips hp hcap hn hmod hout hrise hrange
  obtain ⟨t, ht, htout⟩ := exec_hamEncode_succeeded hp hcap hn hmod hout
  refine ⟨t, ht, fun u hparams hun hlen hbits => ?_⟩
  set n := s.n.toNat
  set cnt := s.inLen.toNat / dataLen n
  have hx : (inputBits s s.inLen.toNat).length = cnt * dataLen n := by
    rw [inputBits_length, Nat.div_mul_cancel (Nat.dvd_of_mod_eq_zero hmod)]
  have hul : u.inLen.toNat = cnt * n := by
    have hmax := Config.Params.maxBits_le hp
    rw [hlen, htout.outLen, encodeBlocks_length, BitVec.toNat_ofNat, Nat.mod_eq_of_lt (by omega)]
  have hun' : u.n.toNat = n := congrArg BitVec.toNat hun
  have hcnt : u.inLen.toNat / u.n.toNat = cnt := by rw [hul, hun', Nat.mul_div_cancel _ (by omega)]
  obtain ⟨hs, hdata, hcorr⟩ := decode_encodeBlocks (y := inputBits u u.inLen.toNat) hx (by rw [inputBits_length, hul])
    hrise hrange fun j hj => by
      rw [inputBits_getD u (hul ▸ hj), hbits j (hul ▸ hj), htout.outBuf j (hj.trans_le hout)]
  obtain ⟨v, hv, hvout⟩ := exec_hamDecode_succeeded (s := u) (hparams ▸ hp) (by rw [hul, hparams]; exact hout)
    (hun' ▸ hn) (by rw [hul, hun', Nat.mul_mod_left]) (by rw [hcnt, hun']; exact hs)
  rw [hcnt, hun', hdata, hcorr] at hvout
  exact ⟨v, hv, hvout⟩

end Sys2Proof.Proofs
end

section
/-! SUPPORT. The polynomials of crc32_verifier (42_crc32_verifier.md R132 to R135): what a bit sequence stands for, and the
divider as the polynomial remainder. -/

namespace Sys2Proof.Machine

open Sys2Proof.Claims Polynomial

/-! ### The polynomial of a bit sequence (R132) -/

@[simp] theorem toPoly_nil : toPoly [] = 0 := rfl

theorem toPoly_cons (b : Bool) (y : Bits) : toPoly (b :: y) = (if b then X ^ y.length else 0) + toPoly y := by
  rw [toPoly, List.length_cons, Finset.sum_range_succ', add_comm, toPoly]
  congr 1
  refine Finset.sum_congr rfl fun j _ => ?_
  rw [List.getD_cons_succ, show y.length + 1 - 1 - (j + 1) = y.length - 1 - j by omega]

@[simp] theorem toPoly_cons_false (y : Bits) : toPoly (false :: y) = toPoly y := by simp [toPoly_cons]

theorem toPoly_append (y z : Bits) : toPoly (y ++ z) = toPoly y * X ^ z.length + toPoly z := by
  induction y with
  | nil => simp
  | cons b y ih =>
    rw [List.cons_append, toPoly_cons, toPoly_cons, ih, List.length_append]
    cases b
    · simp
    · simp only [if_true]; ring

theorem toPoly_replicate_false_append (k : Nat) (y : Bits) : toPoly (List.replicate k false ++ y) = toPoly y := by
  induction k with
  | zero => rfl
  | succ k ih => rw [List.replicate_succ, List.cons_append, toPoly_cons_false, ih]

@[simp] theorem toPoly_replicate_false (k : Nat) : toPoly (List.replicate k false) = 0 := by
  rw [← List.append_nil (List.replicate k false), toPoly_replicate_false_append, toPoly_nil]

/-- The coefficient of x^i is bit i of the sequence read as a number (30_encoding.md R77). -/
theorem coeff_toPoly (y : Bits) (i : Nat) : (toPoly y).coeff i = if (bitsToNat y).testBit i then 1 else 0 := by
  induction y using List.reverseRecOn generalizing i with
  | nil => simp [bitsToNat]
  | append_singleton y b ih =>
    rw [toPoly_append, bitsToNat_concat, ← Nat.bit_val, toPoly_cons, toPoly_nil, List.length_singleton, pow_one]
    cases i with
    | zero => cases b <;> simp
    | succ i => rw [Nat.testBit_bit_succ, ← ih]; cases b <;> simp [coeff_one]

theorem degree_toPoly_lt (y : Bits) : (toPoly y).degree < y.length := by
  refine degree_lt_iff_coeff_zero _ _ |>.mpr fun i hi => ?_
  rw [coeff_toPoly, Nat.testBit_lt_two_pow ((bitsToNat_lt y).trans_le (Nat.pow_le_pow_right Nat.two_pos hi))]
  rfl

theorem monic_toPoly (g : Bits) : (toPoly (true :: g)).Monic := by
  rw [toPoly_cons, if_pos rfl]
  exact monic_X_pow_add (degree_toPoly_lt g)

theorem degree_toPoly (g : Bits) : (toPoly (true :: g)).degree = g.length := by
  rw [toPoly_cons, if_pos rfl, degree_add_eq_left_of_degree_lt] <;> rw [degree_X_pow]
  exact degree_toPoly_lt g

/-- XOR of bits is the addition of GF(2). -/
theorem ite_xor_eq_add (a b : Bool) (p : (ZMod 2)[X]) :
    (if a ^^ b then p else 0) = (if a then p else 0) + if b then p else 0 := by
  cases a <;> cases b <;> simp [CharTwo.add_self_eq_zero]

/-- Flipping bit j adds x^(L−1−j). -/
theorem toPoly_flip {y z : Bits} {j : Nat} (hl : z.length = y.length) (hj : j < y.length)
    (hz : ∀ k, k < y.length → z.getD k false = (y.getD k false ^^ decide (k = j))) :
    toPoly z = toPoly y + X ^ (y.length - 1 - j) := by
  have hterm : ∀ k ∈ Finset.range y.length, (if z.getD k false then X ^ (y.length - 1 - k) else 0 : (ZMod 2)[X]) =
      (if y.getD k false then X ^ (y.length - 1 - k) else 0) + if k = j then X ^ (y.length - 1 - k) else 0 := by
    intro k hk
    rw [hz k (Finset.mem_range.mp hk), ite_xor_eq_add]
    simp only [decide_eq_true_eq]
  rw [toPoly, hl, Finset.sum_congr rfl hterm, Finset.sum_add_distrib, Finset.sum_ite_eq',
    if_pos (Finset.mem_range.mpr hj), toPoly]

/-! ### The divider (R133, R134) -/

theorem toPoly_xorFront : ∀ (w g : Bits), g.length ≤ w.length →
    toPoly (xorFront w g) = toPoly w + toPoly g * X ^ (w.length - g.length)
  | w, [], _ => by cases w <;> simp [xorFront]
  | [], b :: g, h => absurd h (by simp)
  | a :: w, b :: g, h => by
    have h : g.length ≤ w.length := by simpa using h
    have hpow : X ^ w.length = (X ^ g.length * X ^ (w.length - g.length) : (ZMod 2)[X]) := by
      rw [← pow_add, Nat.add_sub_cancel' h]
    rw [xorFront, toPoly_cons, xorFront_length, toPoly_xorFront w g h, toPoly_cons, toPoly_cons, ite_xor_eq_add,
      List.length_cons, List.length_cons, Nat.add_sub_add_right, hpow]
    cases b
    · simp [add_assoc]
    · simp only [if_true]; ring

/-- One position of the scan, when every earlier bit is 0: the bit there becomes 0, and the rest keeps its remainder. -/
theorem divideAt_zeros {g v : Bits} (i : Nat) (h : g.length < v.length) :
    ∃ u, divideAt (true :: g) (List.replicate i false ++ v) i = List.replicate (i + 1) false ++ u ∧
      u.length + 1 = v.length ∧ toPoly (true :: g) ∣ toPoly u - toPoly v := by
  obtain _ | ⟨b, v⟩ := v
  · simp at h
  have hbit : (List.replicate i false ++ b :: v).getD i false = b := by simp
  rw [divideAt, hbit, List.replicate_succ']
  cases b with
  | false => exact ⟨v, by simp, rfl, by simp⟩
  | true =>
    have hx := toPoly_xorFront (true :: v) (true :: g) (by simpa using Nat.le_of_lt_succ h)
    rw [xorFront, Bool.xor_self, toPoly_cons_false] at hx
    refine ⟨xorFront v g, by simp [xorFront], by simp, ?_⟩
    rw [hx, add_sub_cancel_left]
    exact dvd_mul_right _ _

/-- The first k positions of the scan: k bits are 0, and the rest keeps the dividend's remainder. -/
theorem foldl_divideAt (g y : Bits) : ∀ k, k + g.length ≤ y.length →
    ∃ v, (List.range k).foldl (divideAt (true :: g)) y = List.replicate k false ++ v ∧ v.length + k = y.length ∧
      toPoly (true :: g) ∣ toPoly v - toPoly y
  | 0, _ => ⟨y, by simp, rfl, by simp⟩
  | k + 1, h => by
    obtain ⟨v, hv, hlen, hdvd⟩ := foldl_divideAt g y k (by omega)
    obtain ⟨u, hu, hlen', hdvd'⟩ := divideAt_zeros k (show g.length < v.length by omega)
    refine ⟨u, ?_, by omega, ?_⟩
    · rw [List.range_succ, List.foldl_append, hv, List.foldl_cons, List.foldl_nil, hu]
    · simpa using dvd_add hdvd' hdvd

/-- R134: the divider leaves the polynomial remainder, for every divisor with a leading 1. -/
theorem toPoly_mod2Divide (y g : Bits) : toPoly (mod2Divide y (true :: g)) = toPoly y %ₘ toPoly (true :: g) := by
  have hself {r : Bits} (h : r.length ≤ g.length) : toPoly r %ₘ toPoly (true :: g) = toPoly r := by
    rw [modByMonic_eq_self_iff (monic_toPoly g), degree_toPoly]
    exact (degree_toPoly_lt r).trans_le (Nat.cast_le.mpr h)
  rw [mod2Divide, List.length_cons]
  split
  next h => exact (hself (by omega)).symm
  next h =>
    have hk : y.length - (g.length + 1) + 1 = y.length - (g.length + 1 - 1) := by omega
    obtain ⟨v, hv, hlen, hdvd⟩ := foldl_divideAt g y (y.length - (g.length + 1 - 1)) (by omega)
    rw [hk, hv, List.drop_left' List.length_replicate, ← hself (r := v) (by omega)]
    exact modByMonic_eq_of_dvd_sub (monic_toPoly g) hdvd

/-- R135: every bit of a sequence is 0 when its polynomial is. -/
theorem checkRemainder_iff {r : Bits} : checkRemainder r = true ↔ toPoly r = 0 := by
  induction r with
  | nil => simp [checkRemainder]
  | cons b r ih =>
    cases b with
    | false => rw [toPoly_cons_false, ← ih]; rfl
    | true => simp [checkRemainder, (monic_toPoly r).ne_zero]

/-! ### Division by POLY (R131, R134 to R136) -/

theorem monic_poly : (toPoly poly).Monic := monic_toPoly _

theorem degree_poly : (toPoly poly).degree = 32 := by
  rw [poly, degree_toPoly, List.length_map, List.length_range]
  rfl

theorem modByMonic_poly_eq_self {p : (ZMod 2)[X]} (h : p.degree < 32) : p %ₘ toPoly poly = p := by
  rwa [modByMonic_eq_self_iff monic_poly, degree_poly]

/-- R134 for POLY. -/
theorem toPoly_mod2Divide_poly (y : Bits) : toPoly (mod2Divide y poly) = toPoly y %ₘ toPoly poly := toPoly_mod2Divide y _

/-- R133: a sequence of at most 32 bits is shorter than POLY, so it is its own remainder. -/
theorem mod2Divide_poly_of_le {y : Bits} (h : y.length ≤ 32) : mod2Divide y poly = y :=
  if_pos (by rw [poly_length]; omega)

theorem getLsbD_remWord {r : Bits} (h : r.length ≤ 32) (i : Nat) :
    (remWord r).getLsbD i = true ↔ (toPoly r).coeff i = 1 := by
  rw [remWord, BitVec.getLsbD_ofNat, coeff_toPoly, testBit_bitsToNat]
  by_cases hi : i < r.length
  · simp [hi, hi.trans_le h]
  · simp [hi]

/-- R134: bit i of REM is the coefficient of x^i of the polynomial remainder. -/
theorem getLsbD_remWord_mod2Divide (y : Bits) (i : Nat) :
    (remWord (mod2Divide y poly)).getLsbD i = true ↔ (toPoly y %ₘ toPoly poly).coeff i = 1 := by
  rw [getLsbD_remWord (by rw [mod2Divide_poly_length]; omega), toPoly_mod2Divide_poly]

theorem remWord_mod2Divide_congr {y z : Bits} (h : toPoly y %ₘ toPoly poly = toPoly z %ₘ toPoly poly) :
    remWord (mod2Divide y poly) = remWord (mod2Divide z poly) :=
  BitVec.eq_of_getLsbD_eq fun i _ => by
    rw [Bool.eq_iff_iff, getLsbD_remWord_mod2Divide, getLsbD_remWord_mod2Divide, h]

/-- R140: a sequence with the remainder of x^k, k below 32, has the REM word 2^k. -/
theorem remWord_mod2Divide_of_X_pow {y : Bits} {k : Nat} (hk : k < 32)
    (h : toPoly y %ₘ toPoly poly = X ^ k %ₘ toPoly poly) : remWord (mod2Divide y poly) = BitVec.ofNat 32 (2 ^ k) := by
  have hself : (X ^ k : (ZMod 2)[X]) %ₘ toPoly poly = X ^ k :=
    modByMonic_poly_eq_self (by rw [degree_X_pow]; exact Nat.cast_lt.mpr hk)
  refine BitVec.eq_of_getLsbD_eq fun i hi => ?_
  rw [Bool.eq_iff_iff, getLsbD_remWord_mod2Divide, h, hself, coeff_X_pow, BitVec.getLsbD_ofNat, Nat.testBit_two_pow]
  simp [hi, eq_comm]

/-- R134, R135: the check passes exactly when the generator divides. -/
theorem checkRemainder_mod2Divide_iff (y : Bits) :
    checkRemainder (mod2Divide y poly) = true ↔ toPoly poly ∣ toPoly y := by
  rw [checkRemainder_iff, toPoly_mod2Divide_poly, modByMonic_eq_zero_iff_dvd monic_poly]

/-- R140: the generator has the constant term 1 and is no unit. -/
theorem not_poly_dvd_X_pow (k : Nat) : ¬ toPoly poly ∣ X ^ k := by
  intro h
  have hcoeff : (toPoly poly).coeff 0 = 1 := by rw [coeff_toPoly, if_pos (by decide)]
  have hcoprime : IsCoprime (toPoly poly) X := by
    refine ⟨1, -(toPoly poly).divX, ?_⟩
    nth_rw 1 [← divX_mul_X_add (toPoly poly)]
    rw [hcoeff, C_1]
    ring
  have hunit := hcoprime.pow_right.isUnit_of_dvd' dvd_rfl h
  have := degree_poly ▸ degree_eq_zero_of_isUnit hunit
  exact absurd this (by decide)

/-- R140: adding x^k to a multiple of the generator leaves the remainder of x^k, which is not 0. -/
theorem remainder_of_add_X_pow {y z : Bits} {k : Nat} (hd : toPoly poly ∣ toPoly y) (hz : toPoly z = toPoly y + X ^ k) :
    toPoly z %ₘ toPoly poly = X ^ k %ₘ toPoly poly ∧ checkRemainder (mod2Divide z poly) = false := by
  constructor
  · rw [hz, add_modByMonic, (modByMonic_eq_zero_iff_dvd monic_poly).mpr hd, zero_add]
  · rw [Bool.eq_false_iff, ne_eq, checkRemainder_mod2Divide_iff, hz, dvd_add_right hd]
    exact not_poly_dvd_X_pow k

/-- R138: the shifted message has at least 32 bits, so its remainder has 32. -/
theorem checkBits_length (x : Bits) : (mod2Divide (x ++ List.replicate 32 false) poly).length = 32 := by
  simp [mod2Divide_poly_length]

/-- R138: a message followed by its check bits is a multiple of the generator. -/
theorem poly_dvd_append_remainder (x : Bits) :
    toPoly poly ∣ toPoly (x ++ mod2Divide (x ++ List.replicate 32 false) poly) := by
  have hshift : toPoly (x ++ List.replicate 32 false) = toPoly x * X ^ 32 := by
    rw [toPoly_append, toPoly_replicate_false, add_zero, List.length_replicate]
  rw [toPoly_append, checkBits_length, toPoly_mod2Divide_poly, hshift, add_comm, ← CharTwo.sub_eq_add]
  exact dvd_modByMonic_sub _ _

end Sys2Proof.Machine

namespace Sys2Proof.Proofs

open Sys2Proof.Machine Sys2Proof.Claims

/-- Settles O52: the bits by evaluation, the polynomial bit by bit. -/
theorem generatorIsTheStated : Obligations.GeneratorIsTheStated := by
  have hbits : poly = [true, false, false, false, false, false, true, false, false, true, true, false, false, false, false,
    false, true, false, false, false, true, true, true, false, true, true, false, true, true, false, true, true, true] := by
    decide
  refine ⟨hbits, ?_⟩
  rw [hbits]
  simp [toPoly_cons, add_assoc]

/-- Settles O53: the scan subtracts multiples of the generator and leaves fewer than 33 bits. -/
theorem dividerIsThePolynomialRemainder : Obligations.DividerIsThePolynomialRemainder := fun y =>
  ⟨toPoly_mod2Divide_poly y, mod2Divide_poly_length y, mod2Divide_poly_of_le, getLsbD_remWord_mod2Divide y,
    checkRemainder_mod2Divide_iff y⟩

end Sys2Proof.Proofs
end

section
/-! SUPPORT. The commands of crc32_verifier (42_crc32_verifier.md R137 to R141): the result of each command, what a valid
frame is, and the proofs about the round trip, single flipped bits and leading zeros. -/

namespace Sys2Proof.Machine

open Sys2Proof.Claims Polynomial

/-! ### The results of the commands (R137 to R139) -/

section
variable {maxBits len : Nat} {buf : Nat → Bool}

theorem crcVerify_capacityExceeded (h : maxBits < len) :
    crcVerify maxBits len buf = .error { kind := .capacityExceeded, len := len } := if_pos h

theorem crcVerify_shortFrame (hcap : len ≤ maxBits) (h : len < 33) :
    crcVerify maxBits len buf = .error { kind := .shortFrame, len := len } := by
  rw [crcVerify, if_neg (Nat.not_lt.mpr hcap), if_pos h]

theorem crcVerify_ok (hcap : len ≤ maxBits) (h : 33 ≤ len) :
    let x := bufSeq buf 0 len
    let r := mod2Divide x poly
    crcVerify maxBits len buf = .ok
      { out := if checkRemainder r then x.take (len - 32) else [], rem := remWord r, remLen := 32,
        valid := checkRemainder r } := by
  rw [crcVerify, if_neg (Nat.not_lt.mpr hcap), if_neg (Nat.not_lt.mpr h)]

theorem crcAppend_capacityExceeded (h : maxBits < len + 32) :
    crcAppend maxBits len buf = .error { kind := .capacityExceeded, len := len } := if_pos h

theorem crcAppend_ok (hcap : len + 32 ≤ maxBits) :
    let x := bufSeq buf 0 len
    let r := mod2Divide (x ++ List.replicate 32 false) poly
    crcAppend maxBits len buf = .ok { out := x ++ r, rem := remWord r, remLen := 32 } :=
  if_neg (Nat.not_lt.mpr hcap)

theorem crcRemainder_capacityExceeded (h : maxBits < len) :
    crcRemainder maxBits len buf = .error { kind := .capacityExceeded, len := len } := if_pos h

theorem crcRemainder_ok (hcap : len ≤ maxBits) :
    let r := mod2Divide (bufSeq buf 0 len) poly
    crcRemainder maxBits len buf = .ok { rem := remWord r, remLen := r.length, valid := checkRemainder r } :=
  if_neg (Nat.not_lt.mpr hcap)

end

theorem Config.Params.le_maxBits {p : Config.Params} (h : p.legal = true) : 64 ≤ p.maxBits := by
  simp only [Config.Params.legal, Bool.and_eq_true, decide_eq_true_eq] at h
  exact h.2.1

section
variable {s : State} (hp : s.params.legal = true)
include hp

/-- R158: the shortest frame fits every legal block, so a short one is never CAPACITY_EXCEEDED. -/
theorem exec_crcVerify_shortFrame (h : s.inLen.toNat < 33) :
    ∃ t, exec .crcVerify s = .next t ∧ Errored s t 4 0 0 0 s.inLen.toNat :=
  have := Config.Params.le_maxBits hp
  exec_errored (i := .crcVerify) hp (crcVerify_shortFrame (by rw [operandLen]; omega) h)

theorem exec_crcVerify_succeeded (h33 : 33 ≤ s.inLen.toNat) (hcap : s.inLen.toNat ≤ s.params.maxBits) :
    let x := inputBits s s.inLen.toNat
    let r := mod2Divide x poly
    ∃ t, exec .crcVerify s = .next t ∧
      Succeeded s t (if checkRemainder r then x.take (s.inLen.toNat - 32) else []) [] (remWord r) 32
        (checkRemainder r) := by
  rw [← inputBits_eq_bufSeq]
  exact exec_succeeded (i := .crcVerify) hp (crcVerify_ok hcap h33)

theorem exec_crcAppend_succeeded (hcap : s.inLen.toNat + 32 ≤ s.params.maxBits) :
    let x := inputBits s s.inLen.toNat
    let r := mod2Divide (x ++ List.replicate 32 false) poly
    ∃ t, exec .crcAppend s = .next t ∧ Succeeded s t (x ++ r) [] (remWord r) 32 false := by
  rw [← inputBits_eq_bufSeq]
  exact exec_succeeded (i := .crcAppend) hp (crcAppend_ok hcap)

theorem exec_crcRemainder_succeeded (hcap : s.inLen.toNat ≤ s.params.maxBits) :
    let r := mod2Divide (inputBits s s.inLen.toNat) poly
    ∃ t, exec .crcRemainder s = .next t ∧
      Succeeded s t [] [] (remWord r) (min s.inLen.toNat 32) (checkRemainder r) := by
  have hlen := mod2Divide_poly_length (inputBits s s.inLen.toNat)
  rw [inputBits_length] at hlen
  rw [← hlen, ← inputBits_eq_bufSeq]
  exact exec_succeeded (i := .crcRemainder) hp (crcRemainder_ok hcap)

/-- R137: CRC_VERIFY on a frame that is a multiple of the generator. -/
theorem exec_crcVerify_of_dvd (h33 : 33 ≤ s.inLen.toNat) (hcap : s.inLen.toNat ≤ s.params.maxBits)
    (hd : toPoly poly ∣ toPoly (inputBits s s.inLen.toNat)) :
    ∃ t, exec .crcVerify s = .next t ∧
      Succeeded s t ((inputBits s s.inLen.toNat).take (s.inLen.toNat - 32)) [] 0 32 true := by
  have hcheck := (checkRemainder_mod2Divide_iff _).mpr hd
  obtain ⟨t, ht, hsucc⟩ := exec_crcVerify_succeeded hp h33 hcap
  rw [hcheck, if_pos rfl, remWord_of_check hcheck] at hsucc
  exact ⟨t, ht, hsucc⟩

/-- R137: a frame with VALID = 1 fits and is a multiple of the generator. -/
theorem dvd_of_exec_crcVerify_valid {t : State} (h : exec .crcVerify s = .next t) (hv : t.valid = true) :
    33 ≤ s.inLen.toNat ∧ s.inLen.toNat ≤ s.params.maxBits ∧ toPoly poly ∣ toPoly (inputBits s s.inLen.toNat) := by
  have hsame {u : State} (hu : exec .crcVerify s = .next u) : u.valid = true := by
    obtain rfl : t = u := Host.Outcome.next.inj (h.symm.trans hu)
    exact hv
  have hcap : s.inLen.toNat ≤ s.params.maxBits := Nat.not_lt.mp fun hlt => by
    obtain ⟨u, hu, herr⟩ := exec_errored (i := .crcVerify) hp (crcVerify_capacityExceeded hlt)
    exact Bool.false_ne_true (herr.valid.symm.trans (hsame hu))
  have h33 : 33 ≤ s.inLen.toNat := Nat.not_lt.mp fun hlt => by
    obtain ⟨u, hu, herr⟩ := exec_crcVerify_shortFrame hp hlt
    exact Bool.false_ne_true (herr.valid.symm.trans (hsame hu))
  obtain ⟨u, hu, hsucc⟩ := exec_crcVerify_succeeded hp h33 hcap
  exact ⟨h33, hcap, (checkRemainder_mod2Divide_iff _).mp (hsucc.valid.symm.trans (hsame hu))⟩

end

/-! ### Inputs given bit by bit -/

theorem inputBits_eq_of_bits {s : State} {len : Nat} {y : Bits} (hl : y.length = len)
    (h : ∀ j, j < len → inBit s j = y.getD j false) : inputBits s len = y := by
  refine List.ext_getElem (by simp [hl]) fun j hj hj' => ?_
  rw [← List.getD_eq_getElem _ false hj', ← h j (hl ▸ hj')]
  simp [inputBits]

theorem inputBits_of_zeros {s : State} {len : Nat} (h : ∀ j, j < len → inBit s j = false) :
    inputBits s len = List.replicate len false :=
  inputBits_eq_of_bits List.length_replicate fun j hj => by simp [h j hj, hj]

theorem inputBits_succ {s u : State} {len : Nat} (h0 : inBit u 0 = false)
    (h : ∀ j, j < len → inBit u (j + 1) = inBit s j) : inputBits u (len + 1) = false :: inputBits s len :=
  inputBits_eq_of_bits (by simp) fun j hj => by
    cases j with
    | zero => exact h0
    | succ j => rw [List.getD_cons_succ, inputBits_getD s (by omega), h j (by omega)]

theorem toPoly_inputBits_flip {s u : State} {len j : Nat} (hj : j < len)
    (h : ∀ k, k < len → inBit u k = (inBit s k ^^ decide (k = j))) :
    toPoly (inputBits u len) = toPoly (inputBits s len) + X ^ (len - 1 - j) := by
  have := toPoly_flip (y := inputBits s len) (z := inputBits u len) (by simp) (by simpa using hj) fun k hk => by
    rw [inputBits_length] at hk
    rw [inputBits_getD u hk, inputBits_getD s hk, h k hk]
  rwa [inputBits_length] at this

end Sys2Proof.Machine

namespace Sys2Proof.Proofs

open Sys2Proof.Machine Sys2Proof.Claims

/-- Settles O54: a frame past both checks is divided. -/
theorem crcVerifyCompletes : Obligations.CrcVerifyCompletes := fun _ hp h33 hcap => exec_crcVerify_succeeded hp h33 hcap

/-- Settles O55: 32 check bits follow every message. -/
theorem crcAppendCompletes : Obligations.CrcAppendCompletes := by
  intro s hp hcap
  obtain ⟨t, ht, hsucc⟩ := exec_crcAppend_succeeded hp hcap
  exact ⟨t, ht, checkBits_length _, hsucc⟩

/-- Settles O56: the remainder has as many bits as the input, at most 32. -/
theorem crcRemainderCompletes : Obligations.CrcRemainderCompletes := fun _ hp hcap => exec_crcRemainder_succeeded hp hcap

/-- Settles O57: the checks in their order. -/
theorem crcErrors : Obligations.CrcErrors := fun _ hp =>
  ⟨fun h => ⟨exec_errored (i := .crcVerify) hp (crcVerify_capacityExceeded h),
      exec_errored (i := .crcRemainder) hp (crcRemainder_capacityExceeded h)⟩,
    exec_crcVerify_shortFrame hp, fun h => exec_errored (i := .crcAppend) hp (crcAppend_capacityExceeded h)⟩

/-- Settles O59: a message with its check bits is a multiple of the generator, and a flip adds a power of x. -/
theorem crcRoundTripAndSingleBitDetection : Obligations.CrcRoundTripAndSingleBitDetection := by
  constructor
  · intro s hp hcap
    obtain ⟨t, ht, hout⟩ := exec_crcAppend_succeeded hp hcap
    refine ⟨t, ht, fun u hparams hlen hbits => ?_⟩
    have hxr := poly_dvd_append_remainder (inputBits s s.inLen.toNat)
    set x := inputBits s s.inLen.toNat
    set r := mod2Divide (x ++ List.replicate 32 false) poly
    have hframe : (x ++ r).length = s.inLen.toNat + 32 := by
      rw [List.length_append, inputBits_length, checkBits_length]
    have hul : u.inLen.toNat = s.inLen.toNat + 32 := by
      have hmax := Config.Params.maxBits_le hp
      rw [hlen, hout.outLen, hframe, BitVec.toNat_ofNat, Nat.mod_eq_of_lt (by omega)]
    have hin : inputBits u u.inLen.toNat = x ++ r :=
      inputBits_eq_of_bits (hframe.trans hul.symm) fun j hj => by rw [hbits j hj, hout.outBuf j (by omega)]
    by_cases h0 : s.inLen.toNat = 0
    · obtain ⟨v, hv, herr⟩ := exec_crcVerify_shortFrame (s := u) (hparams ▸ hp) (by omega)
      rw [hul, h0] at herr
      exact ⟨v, hv, fun h => by omega, fun _ => herr⟩
    · obtain ⟨v, hv, hsucc⟩ := exec_crcVerify_of_dvd (s := u) (hparams ▸ hp) (by omega) (by rw [hparams]; omega)
        (hin ▸ hxr)
      rw [hin, hul, Nat.add_sub_cancel, List.take_left' (inputBits_length s _)] at hsucc
      exact ⟨v, hv, fun _ => hsucc, fun h => absurd h h0⟩
  · intro s t u j hp hs hvalid hparams hlen hj hbits
    obtain ⟨h33, hcap, hd⟩ := dvd_of_exec_crcVerify_valid hp hs hvalid
    obtain ⟨hrem, hcheck⟩ := remainder_of_add_X_pow hd (toPoly_inputBits_flip hj hbits)
    obtain ⟨v, hv, hsucc⟩ := exec_crcVerify_succeeded (s := u) (hparams ▸ hp) (hlen ▸ h33) (by rwa [hlen, hparams])
    rw [hlen] at hsucc
    refine ⟨v, hv, hsucc.valid.trans hcheck, hsucc.errCode, fun i => ?_, fun hk => ?_⟩
    · rw [hsucc.rem, getLsbD_remWord_mod2Divide, hrem]
    · rw [hsucc.rem, remWord_mod2Divide_of_X_pow hk hrem]

/-- Settles O60: zeros in front leave the polynomial as it is, and the generator divides the zero polynomial. -/
theorem leadingZerosAreInvisible : Obligations.LeadingZerosAreInvisible := by
  refine ⟨fun k y => ?_, fun s t u hp hs hvalid hparams hcap hlen h0 hbits => ?_, fun s hp h33 hcap hzero => ?_⟩
  · have hpoly := toPoly_replicate_false_append k y
    refine ⟨remWord_mod2Divide_congr (by rw [hpoly]), ?_⟩
    rw [Bool.eq_iff_iff, checkRemainder_mod2Divide_iff, checkRemainder_mod2Divide_iff, hpoly]
  · obtain ⟨h33, -, hd⟩ := dvd_of_exec_crcVerify_valid hp hs hvalid
    have hin : inputBits u u.inLen.toNat = false :: inputBits s s.inLen.toNat := hlen ▸ inputBits_succ h0 hbits
    obtain ⟨v, hv, hsucc⟩ := exec_crcVerify_of_dvd (s := u) (hparams ▸ hp) (by omega) (by rw [hparams]; omega)
      (by rwa [hin, toPoly_cons_false])
    rw [hin, hlen, Nat.sub_add_comm (by omega), List.take_succ_cons] at hsucc
    exact ⟨v, hv, hsucc⟩
  · have hin := inputBits_of_zeros hzero
    have := exec_crcVerify_of_dvd hp h33 hcap (by rw [hin, toPoly_replicate_false]; exact dvd_zero _)
    rwa [hin, List.take_replicate, Nat.min_eq_left (Nat.sub_le _ _)] at this

end Sys2Proof.Proofs
end

section
/-! SUPPORT. The proofs of the exceptions family (60_exceptions.md): what raises `irq`, which codes ERR_CODE can take, the
nonzero remainder of a CRC mismatch, and the next state that every step answers. -/

namespace Sys2Proof.Machine

open Sys2Proof.Claims

/-! ### The interrupt line (R168, R169) -/

theorem irq_eq_true_iff (s : State) : irq s = true ↔ s.done = true ∧ s.ctrlIe = true := Bool.and_eq_true_iff

theorem SameMachine.ctrlIe {u t : State} (h : SameMachine u t) : t.ctrlIe = u.ctrlIe := congrArg Block.ctrlIe h.block

/-- R22: what can set CTRL.IE. -/
theorem StepEffect.ctrlIe_rises {s u : State} (he : StepEffect s u) (h0 : s.ctrlIe = false) (h1 : u.ctrlIe = true) :
    ∃ v, Writes s (.reg .ctrl) v ∧ v.getLsbD 0 = true := by
  cases he with
  | enable hw => exact ⟨_, hw, h1⟩
  | _ => simp [h0] at h1

/-- A completion leaves CTRL.IE as it was. -/
theorem ctrlIe_of_step_completes {s t : State} (hc : Completes s) (h : step s = .next t) : t.ctrlIe = s.ctrlIe := by
  obtain ⟨w, -, rfl⟩ := step_of_completes hc h
  exact complete_ctrlIe _ s

/-! ### The codes of ERR_CODE (R152 to R154) -/

theorem SameMachine.errCode {u t : State} (h : SameMachine u t) : t.errCode = u.errCode := congrArg Block.errCode h.block

/-- R153, R154: a completion writes 0 or a code of 2 to 7. -/
theorem errCode_complete_named (w : Word) (s : State) :
    (complete (resultOfWord w s) s).errCode = 0 ∨
      2 ≤ (complete (resultOfWord w s) s).errCode.toNat ∧ (complete (resultOfWord w s) s).errCode.toNat ≤ 7 := by
  cases hr : resultOfWord w s with
  | ok o => exact .inl rfl
  | error e => exact .inr (errCodeOf_bounds (resultOfWord_error_kind hr))

/-- R153, R154: what an effect can leave in ERR_CODE. -/
theorem StepEffect.errCode_named {s u : State} (he : StepEffect s u) :
    u.errCode = s.errCode ∨ u.errCode = 0 ∨ 2 ≤ u.errCode.toNat ∧ u.errCode.toNat ≤ 7 := by
  cases he with
  | completion => exact .inr (errCode_complete_named _ s)
  | powerOn | soft => exact .inr (.inl rfl)
  | unchanged | violation | enable | clear | accept | setN | setInLen | storeIn => exact .inl rfl

/-! ### The remainder of a mismatch (R163) -/

/-- 10_state.md R38: REM holds every bit of a remainder of at most 32, so it is 0 only when they all are. -/
theorem checkRemainder_of_remWord_eq_zero {r : Bits} (hl : r.length ≤ 32) (h : remWord r = 0) :
    checkRemainder r = true := by
  rw [checkRemainder_iff]
  ext i
  have hbit : ¬ (toPoly r).coeff i = 1 := by simp [← getLsbD_remWord hl, h]
  rw [coeff_toPoly] at hbit ⊢
  simpa using hbit

/-! ### A next state from every step (R151) -/

/-- 10_state.md R17: with a command word held the engine completes it. -/
theorem engineStep_answers {s : State} (hp : s.pending.isSome = true) : ∃ t, engineStep s = .next t := by
  obtain ⟨w, hw⟩ := Option.isSome_iff_exists.mp hp
  exact ⟨_, engineStep_eq_complete hw⟩

/-- S0: after the schedule the host moves unless it waits for the engine. -/
theorem step_host_of_no_turns {s : State} (ht : s.turns = []) (h : ¬ (s.busy = true ∧ hostWaits s = true)) :
    step s = .next (hostTurn s) := by
  simp only [step, nextStep, ht, Bool.and_eq_true, if_neg h]

theorem step_rst {s : State} {ts : List Turn} (ht : s.turns = .rst :: ts) :
    step s = .next (powerOnReset { s with turns := ts }) := by
  simp [step, nextStep, ht]

end Sys2Proof.Machine

namespace Sys2Proof.Proofs

open Sys2Proof.Machine Sys2Proof.Claims

/-- Settles O29: DONE rises only by a completion, which keeps IE; with DONE = 1 before the step it is IE that rises, and the
write that sets it is no reset, since a reset clears DONE. -/
theorem irqRisesOnlyByCompletionOrEnable : Obligations.IrqRisesOnlyByCompletionOrEnable := by
  intro s t h h0 h1
  obtain ⟨u, he, hs⟩ := step_effect h
  obtain ⟨hdone, hie⟩ := (irq_eq_true_iff t).mp h1
  cases hd : s.done with
  | false =>
    have hc : Completes s := he.done_rises hd (hs.done.symm.trans hdone)
    exact .inl ⟨hc, (ctrlIe_of_step_completes hc h).symm.trans hie⟩
  | true =>
    have hie0 : s.ctrlIe = false := by simpa [irq, hd] using h0
    obtain ⟨v, hw, hv⟩ := he.ctrlIe_rises hie0 (hs.ctrlIe.symm.trans hie)
    refine .inr ⟨rfl, hie0, v, hw, hv, Bool.eq_false_iff.mpr fun hreset => ?_⟩
    exact Bool.false_ne_true ((done_of_step_resets (.inr ⟨v, hw, hreset⟩) h).symm.trans hdone)

/-- Settles O32: a completion writes a named code, a reset 0, and no other effect writes ERR_CODE. -/
theorem onlyNamedErrorCodesAreWritten : Obligations.OnlyNamedErrorCodesAreWritten := by
  intro s t h
  obtain ⟨u, he, hs⟩ := step_effect h
  rw [hs.errCode]
  refine he.errCode_named.imp_right ?_
  rintro (h0 | ⟨h2, h7⟩)
  · simp [h0]
  · simp only [List.mem_cons, List.not_mem_nil]
    omega

/-- Settles O58: the remainder has 32 bits at most, so its word is 0 only when the check passes. -/
theorem crcMismatchIsNoError : Obligations.CrcMismatchIsNoError := by
  intro s hp h33 hcap hcheck
  obtain ⟨t, ht, hsucc⟩ := exec_crcVerify_succeeded hp h33 hcap
  have hout := hsucc.outLen
  rw [hcheck] at hout
  refine ⟨t, ht, hsucc.errCode, hsucc.err, hsucc.valid.trans hcheck, hout, hsucc.rem, fun hzero => ?_⟩
  have hlen : (mod2Divide (inputBits s s.inLen.toNat) poly).length ≤ 32 := by rw [mod2Divide_poly_length]; omega
  have := checkRemainder_of_remWord_eq_zero hlen (hsucc.rem.symm.trans hzero)
  exact Bool.false_ne_true (hcheck.symm.trans this)

/-- Settles O7, by the agent that moves next; the engine moves only with BUSY = 1, where a word is held. -/
theorem nothingStopsTheBlock : Obligations.NothingStopsTheBlock := by
  intro s hp
  match ht : s.turns with
  | .host :: ts => exact ⟨_, step_host ht⟩
  | .rst :: ts => exact ⟨_, step_rst ht⟩
  | .engine :: ts =>
    cases hb : s.busy with
    | false => exact ⟨_, step_engine_idle ht hb⟩
    | true => rw [step_engine_busy ht hb]; exact engineStep_answers (hp.trans hb)
  | [] =>
    by_cases hw : s.busy = true ∧ hostWaits s = true
    · rw [step_engine_of_no_turns ht hw.1 hw.2]; exact engineStep_answers (hp.trans hw.1)
    · exact ⟨_, step_host_of_no_turns ht hw⟩

end Sys2Proof.Proofs
end

section
/-! SUPPORT. The proofs of the reset and hazards family (70_reset_and_hazards.md): the two resets, the commands issued at
once after one, and the completion of an accepted command under every schedule without a reset. -/

namespace Sys2Proof.Machine

/-! ### The bytes and flags after a reset (R177, R178) -/

/-- R177: every flag is cleared. -/
theorem statusWord_powerOnReset (s : State) : statusWord (powerOnReset s) = 0 := by simp [statusWord, zext1]

/-- R177: after the power-on reset every implemented byte is the free byte of the reset's draw. -/
theorem readByte_powerOnReset {s : State} {a : Nat} (ha : implemented s.params a = true) :
    readByte (powerOnReset s) a = Config.freeByte s.draws a := by
  rw [readByte_of_implemented (s := powerOnReset s) ha, powerOnReset_mem]
  simp [Memory.byteAt, findCell, Memory.unlisted]

/-- R178: after the soft reset every implemented byte from OUT_BUF on is the free byte of the reset's draw. -/
theorem readByte_softReset_out {s : State} {a : Nat} (ha : outBase ≤ a) (hi : implemented s.params a = true) :
    readByte (softReset s) a = Config.freeByte s.draws a := by
  rw [readByte_of_implemented (s := softReset s) hi, softReset_mem, Memory.byteAt_dropResults,
    if_neg (Nat.not_lt.mpr ha)]

/-- R90, R178: the CTRL write that is a soft reset. -/
theorem busStep_soft {v : Word} (hv : v.getLsbD 1 = true) (s : State) :
    busStep (memWriteTxn (regAddr .ctrl) v) s = { softReset s with response := some .ok } := by
  rw [busStep_write_reg, writeReg, writeCtrl, if_pos hv]

/-! ### The commands with N = IN_LEN = 0 (R180) -/

section
variable {s : State} (hp : s.params.legal = true) (hcap : s.inLen.toNat ≤ s.params.maxBits) (hn : s.n.toNat < 3)
include hp hcap hn

/-- 60_exceptions.md R157, R162: an N below 3 is BAD_PARAM once the input fits. -/
theorem exec_hamDecode_badParam :
    ∃ t, exec .hamDecode s = .next t ∧ Errored s t 5 0 0 s.n.toNat s.inLen.toNat :=
  exec_errored (i := .hamDecode) hp (hamDecode_badParam hcap hn)

theorem exec_hamEncode_badParam :
    ∃ t, exec .hamEncode s = .next t ∧ Errored s t 5 0 0 s.n.toNat s.inLen.toNat :=
  exec_errored (i := .hamEncode) hp (hamEncode_badParam hcap hn)

end

section
variable {s : State} (hp : s.params.legal = true) (hl : s.inLen.toNat = 0)
include hp hl

/-- 42_crc32_verifier.md R138: the check bits of the empty message are 32 zeros, their own remainder. -/
theorem exec_crcAppend_empty :
    ∃ t, exec .crcAppend s = .next t ∧ Succeeded s t (List.replicate 32 false) [] 0 32 false := by
  have hmax := Config.Params.le_maxBits hp
  have hrem : mod2Divide (List.replicate 32 false) poly = List.replicate 32 false := mod2Divide_poly_of_le (by simp)
  have hword : remWord (List.replicate 32 false) = 0 := remWord_of_check (by decide)
  have hempty : inputBits s 0 = [] := rfl
  have h := exec_crcAppend_succeeded hp (by omega)
  simpa only [hl, hempty, List.nil_append, hrem, hword] using h

/-- 42_crc32_verifier.md R139: the empty input has an empty remainder, which passes the check. -/
theorem exec_crcRemainder_empty : ∃ t, exec .crcRemainder s = .next t ∧ Succeeded s t [] [] 0 0 true := by
  have hrem : mod2Divide [] poly = [] := mod2Divide_poly_of_le (by simp)
  have hempty : inputBits s 0 = [] := rfl
  have h := exec_crcRemainder_succeeded hp (by omega)
  rwa [hl, hempty, hrem] at h

end

/-! ### What lies ahead of a busy block (R182) -/

/-- The entries that the schedule and the script still hold. -/
def entriesAhead (s : State) : Nat := s.turns.length + s.host.length

/-- No power-on reset in the schedule and no soft reset in the script. -/
structure NoResetAhead (s : State) : Prop where
  turns : .rst ∉ s.turns
  host : ∀ m ∈ s.host, isSoftReset m = false

theorem NoResetAhead.of_suffix {s t : State} (h : NoResetAhead s) (ht : t.turns <:+ s.turns) (hh : t.host <:+ s.host) :
    NoResetAhead t where
  turns hm := h.turns (ht.subset hm)
  host m hm := h.host m (hh.subset hm)

/-- The transaction of the next step is one of the script's. -/
theorem bus_mem_host_of_nextTxn {s : State} {x : Txn} (h : nextTxn s = some x) : .bus x ∈ s.host := by
  unfold nextTxn at h
  split at h
  · rename_i hh; cases h; rw [hh]; exact List.mem_cons_self
  · rename_i hh; cases h; rw [hh]; exact List.mem_cons_self
  · cases h

theorem NoResetAhead.not_resets {s : State} (h : NoResetAhead s) : ¬ Resets s := by
  rintro (⟨ts, ht⟩ | ⟨v, ⟨x, hx, hwf, hk, htg, rfl⟩, hv⟩)
  · exact h.turns (ht ▸ List.mem_cons_self)
  · have hsoft := h.host _ (bus_mem_host_of_nextTxn hx)
    rw [isSoftReset, hwf, hk, htg, hv] at hsoft
    cases hsoft

theorem hostTurn_turns (s : State) : (hostTurn s).turns = s.turns := by
  rcases hostTurn_cases s with ⟨x, rest, -, he⟩ | ⟨-, -, -, ht, -⟩
  · rw [he]; exact (busStep_environment x _).2.2
  · exact ht

theorem hostTurn_host_bus {s : State} {x : Txn} {rest : List HostMove} (hh : s.host = .bus x :: rest) :
    (hostTurn s).host = rest := by
  simp only [hostTurn, hh]
  exact (busStep_environment x _).2.1

/-- R81, R99: a host turn takes at most the script's first move. -/
theorem hostTurn_host_suffix (s : State) : (hostTurn s).host <:+ s.host := by
  match hh : s.host with
  | [] => simp [hostTurn, hh]
  | .bus x :: rest => rw [hostTurn_host_bus hh]; exact List.suffix_cons _ _
  | .wait :: rest =>
    rw [hostTurn_wait hh]
    dsimp only
    split
    · exact List.suffix_rfl
    · exact List.suffix_cons _ _
  | .waitIrq :: rest =>
    simp only [hostTurn, hh]
    split
    · exact List.suffix_cons _ _
    · exact List.suffix_rfl

/-- A host that does not wait for the engine takes a move. -/
theorem hostTurn_host_lt {s : State} (hw : hostWaits s = false) : (hostTurn s).host.length < s.host.length := by
  match hh : s.host with
  | .bus x :: rest => rw [hostTurn_host_bus hh]; exact Nat.lt_succ_self _
  | [] | .wait :: _ | .waitIrq :: _ => simp [hostWaits, hh] at hw

/-- R182: every step before the completion takes an entry of the schedule or of the script, and adds none. -/
theorem step_before_completion {s t : State} (hb : s.busy = true) (hn : NoResetAhead s) (hc : ¬ Completes s)
    (h : step s = .next t) : entriesAhead t < entriesAhead s ∧ NoResetAhead t := by
  match ht : s.turns with
  | .rst :: ts => exact absurd (ht ▸ List.mem_cons_self) hn.turns
  | .engine :: ts => exact absurd ⟨hb, .inl ⟨ts, ht⟩⟩ hc
  | .host :: ts =>
    rw [step_host ht] at h
    cases h
    have hturns := hostTurn_turns { s with turns := ts }
    have hhost : (hostTurn { s with turns := ts }).host <:+ s.host := hostTurn_host_suffix _
    refine ⟨?_, hn.of_suffix (by rw [hturns, ht]; exact List.suffix_cons _ _) hhost⟩
    have := hhost.length_le
    simp only [entriesAhead, hturns, ht, List.length_cons]
    omega
  | [] =>
    have hw : hostWaits s = false := Bool.eq_false_iff.mpr fun hw => hc ⟨hb, .inr ⟨ht, hw⟩⟩
    rw [step_host_of_no_turns ht (by simp [hw])] at h
    cases h
    have hturns := hostTurn_turns s
    refine ⟨?_, hn.of_suffix (hturns ▸ List.suffix_rfl) (hostTurn_host_suffix s)⟩
    have := hostTurn_host_lt hw
    simp only [entriesAhead, hturns]
    omega

/-! ### What the steps before the completion keep (10_state.md R45) -/

/-- `u` holds the command of `s`, its operands and every buffer. -/
structure KeepsCommand (s u : State) : Prop where
  pending : u.pending = s.pending
  n : u.n = s.n
  inLen : u.inLen = s.inLen
  mem : u.mem = s.mem
  params : u.params = s.params

theorem KeepsCommand.refl (s : State) : KeepsCommand s s := ⟨rfl, rfl, rfl, rfl, rfl⟩

theorem KeepsCommand.trans {s t u : State} (h : KeepsCommand s t) (h' : KeepsCommand t u) : KeepsCommand s u :=
  ⟨h'.pending.trans h.pending, h'.n.trans h.n, h'.inLen.trans h.inLen, h'.mem.trans h.mem, h'.params.trans h.params⟩

theorem KeepsCommand.readByte {s u : State} (h : KeepsCommand s u) (a : Nat) : readByte u a = readByte s a := by
  rw [Machine.readByte, Machine.readByte, h.mem, h.params]

theorem StepEffect.params {s u : State} (he : StepEffect s u) : u.params = s.params := by
  cases he with
  | completion => exact complete_params _ s
  | _ => rfl

/-- R45: a step of a busy block that is neither its completion nor a reset leaves it busy, with its command. -/
theorem step_keepsCommand {s t : State} (hb : s.busy = true) (hc : ¬ Completes s) (hr : ¬ Resets s)
    (h : step s = .next t) : t.busy = true ∧ KeepsCommand s t := by
  obtain ⟨u, he, hs⟩ := step_effect h
  have hu : u.busy = true := by
    by_contra hu
    exact (he.busy_falls hb (Bool.eq_false_iff.mpr hu)).elim hc hr
  have hblock := hs.block.trans (he.busy_frame hb hu)
  have hfield {α : Type} (f : Block → α) := congrArg f hblock
  exact ⟨hs.busy.trans hu, hfield Block.pending, hfield Block.n, hfield Block.inLen, hfield Block.mem,
    hs.params.trans he.params⟩

theorem run_succ_of_step (M : Host.Core) {s t : M.State} (h : M.step s = .next t) (k : Nat) :
    M.run (k + 1) s = M.run k t := by
  simp [Host.Core.run, h]

/-- R182: with no reset ahead a busy block reaches its completion, within the entries ahead, and with its command. -/
theorem reaches_completion {s : State} (hp : s.pending.isSome = true) (hb : s.busy = true) (hn : NoResetAhead s) :
    ∃ k u, k ≤ entriesAhead s ∧ core.run k s = .next u ∧ Completes u ∧ KeepsCommand s u := by
  by_cases hc : Completes s
  · exact ⟨0, s, Nat.zero_le _, rfl, hc, .refl s⟩
  · obtain ⟨t, ht⟩ := Proofs.nothingStopsTheBlock s (hp.trans hb.symm)
    obtain ⟨hlt, hnt⟩ := step_before_completion hb hn hc ht
    obtain ⟨hbt, hkeep⟩ := step_keepsCommand hb hc hn.not_resets ht
    obtain ⟨k, u, hk, hrun, hu, hkeep'⟩ := reaches_completion (hkeep.pending ▸ hp) hbt hnt
    exact ⟨k + 1, u, by omega, (run_succ_of_step core ht k).trans hrun, hu, hkeep.trans hkeep'⟩
termination_by entriesAhead s

end Sys2Proof.Machine

namespace Sys2Proof.Proofs

open Sys2Proof.Machine

/-- Settles O10: each step before the completion takes an entry of the schedule or the script and keeps the command, so one
is the last. -/
theorem acceptedCommandCompletesOnItsOperands : Obligations.AcceptedCommandCompletesOnItsOperands := by
  intro s hi hb hturns hhost
  have hp : s.pending.isSome = true := hi.pendingIffBusy.trans hb
  obtain ⟨k, u, hk, hrun, hc, hkeep⟩ := reaches_completion hp hb ⟨hturns, hhost⟩
  obtain ⟨t, ht⟩ := nothingStopsTheBlock u (by rw [hkeep.pending, hp, hc.1])
  exact ⟨k, u, t, hk, hrun, hc, hkeep.pending, hkeep.n, hkeep.inLen, hkeep.readByte, ht, busy_of_step_completes hc ht,
    done_of_step_completes hc ht⟩

/-- Settles O36: the empty input is too short a frame, its remainders are zero, and N = 0 is below 3. -/
theorem commandsIssuedAtOnceAfterReset : Obligations.CommandsIssuedAtOnceAfterReset := by
  intro s hp hn hl
  have hn0 : s.n.toNat = 0 := congrArg BitVec.toNat hn
  have hl0 : s.inLen.toNat = 0 := congrArg BitVec.toNat hl
  have hverify := exec_crcVerify_shortFrame hp (by omega)
  have hdecode := exec_hamDecode_badParam hp (by omega) (by omega)
  have hencode := exec_hamEncode_badParam hp (by omega) (by omega)
  rw [hl0] at hverify
  rw [hl0, hn0] at hdecode hencode
  exact ⟨hverify, exec_crcAppend_empty hp hl0, exec_crcRemainder_empty hp hl0, hdecode, hencode⟩

/-- Settles O33: the step is the power-on reset, which clears every register and drops the whole memory. -/
theorem powerOnResetClearsEverything : Obligations.PowerOnResetClearsEverything := by
  intro s ts ht
  exact ⟨_, step_rst ht, rfl, fun a => readByte_powerOnReset, rfl, statusWord_powerOnReset _, rfl, rfl, rfl, rfl, rfl⟩

/-- Settles O34: the write is the soft reset, which keeps the bytes below OUT_BUF and drops the others. -/
theorem softResetKeepsInBuf : Obligations.SoftResetKeepsInBuf := by
  intro s v _ hv t
  have ht : t = { softReset s with response := some .ok } := busStep_soft hv s
  rw [ht]
  exact ⟨rfl, fun a => readByte_softReset_in s, fun a => readByte_softReset_out, rfl, rfl, rfl, rfl, rfl⟩

end Sys2Proof.Proofs
end
